-- ==== Sys2Proof/Word.lean ====
section
/-! DEFINITION. The word types of the block: every wire field is one byte (00_scope.md R7), an operation word has
16 bits (30_encoding.md R70). -/

namespace Sys2Proof

/-- `byte` of 00_scope.md R13: 8 bits, unsigned. -/
abbrev Byte := BitVec 8

/-- The operation word `w` of 30_encoding.md R70, bit 0 least significant (R11). -/
abbrev OpWord := BitVec 16

end Sys2Proof
end

