-- ==== Sys2Proof/Syntax.lean ====
section
/-! DEFINITION. Instructions as syntax: one constructor per row of spec/opcode_table.json (eight operation words, four
inbound wire frames, one outbound wire frame), and what can be presented to the block (30_encoding.md R70 to R84). -/

namespace Sys2Proof

/-- FeatureId of 10_state.md R30: ten named features and six reserved slots, all legal operands (R72). -/
inductive FeatureId where
  | unknown
  | spa
  | cleaner
  | airBlower
  | spaLight
  | poolLight
  | pool
  | waterFeature
  | spillway
  | aux
  | reserved10
  | reserved11
  | reserved12
  | reserved13
  | reserved14
  | reserved15
deriving DecidableEq, Repr

/-- Which of the two start markers of 30_encoding.md R78 opens a frame: `FF A5` or `FF 00 A5`. -/
inductive Marker where
  | two
  | three
deriving DecidableEq, Repr

/-- One constructor per row of the opcode table. -/
inductive Instr where
  /-- `IDLE` (43_host_ops.md R170). -/
  | idle
  /-- `RX b`: feed one received byte (40_rx_sync.md R100). -/
  | rx (b : Byte)
  /-- `CMDF f, s`: feature-addressed command (42_cmd_framer.md R154). -/
  | cmdf (f : FeatureId) (on : Bool)
  /-- `CMDA a, s`: raw-address command (42_cmd_framer.md R156). -/
  | cmda (a : Byte) (on : Bool)
  /-- `QUERY f` (43_host_ops.md R171). -/
  | query (f : FeatureId)
  /-- `RESET` (43_host_ops.md R173). -/
  | reset
  /-- `RESERVED.OPC5`: `OPC` 101 with any thirteen other bits (30_encoding.md R73). -/
  | reservedOpc5 (x : BitVec 13)
  /-- `RESERVED.OPC6`: `OPC` 110 with any thirteen other bits (30_encoding.md R73). -/
  | reservedOpc6 (x : BitVec 13)
  /-- `SOF2`: the two-byte start marker `FF A5` on the wire (30_encoding.md R78). -/
  | sof2
  /-- `SOF3`: the three-byte start marker `FF 00 A5` on the wire (30_encoding.md R78). -/
  | sof3
  /-- `STATUS.L`: an inbound status frame with dialect L's triple (30_encoding.md R76). -/
  | statusL (m : Marker) (cmd len : Byte) (body : List Byte) (chk : Byte)
  /-- `STATUS.E`: an inbound status frame with dialect E's type; `main` is its source byte (30_encoding.md R76). -/
  | statusE (m : Marker) (main cmd len : Byte) (body : List Byte) (chk : Byte)
  /-- `CIRCUIT`: the outbound command frame; `remote` and `chk` are its bytes 5 and 9 (30_encoding.md R77). -/
  | circuit (dest remote : Byte) (on : Bool) (chk : Byte)
deriving DecidableEq, Repr

/-- What the host presents: an operation word at the operation port, a burst of received bytes (40_rx_sync.md, opening:
the caller "may batch-feed while preserving identical observable transitions"; entry 5), or an outbound frame asked of
the framer by its bytes (entry 6). -/
inductive Presented where
  | opw (w : OpWord)
  | wireIn (bytes : List Byte)
  | wireOut (bytes : List Byte)
deriving DecidableEq, Repr

end Sys2Proof
end

