-- ==== Sys2Proof/Decode.lean ====
section
/-! DEFINITION. The decoder (total, rejecting by name) and the encoder, both from 30_encoding.md and
spec/opcode_table.json. -/

namespace Sys2Proof

/-! ### FeatureId numbers (10_state.md R30) -/

/-- The number of a FeatureId, in the order R30 lists them. -/
def featureNum : FeatureId → Fin 16
  | .unknown => 0
  | .spa => 1
  | .cleaner => 2
  | .airBlower => 3
  | .spaLight => 4
  | .poolLight => 5
  | .pool => 6
  | .waterFeature => 7
  | .spillway => 8
  | .aux => 9
  | .reserved10 => 10
  | .reserved11 => 11
  | .reserved12 => 12
  | .reserved13 => 13
  | .reserved14 => 14
  | .reserved15 => 15

/-- The FeatureId with a given number; all sixteen values are legal operands (30_encoding.md R72). -/
def featureOfNum (c : BitVec 4) : FeatureId :=
  match c.toNat with
  | 0 => .unknown
  | 1 => .spa
  | 2 => .cleaner
  | 3 => .airBlower
  | 4 => .spaLight
  | 5 => .poolLight
  | 6 => .pool
  | 7 => .waterFeature
  | 8 => .spillway
  | 9 => .aux
  | 10 => .reserved10
  | 11 => .reserved11
  | 12 => .reserved12
  | 13 => .reserved13
  | 14 => .reserved14
  | _ => .reserved15

/-! ### Fields of the operation word (30_encoding.md R70, R71) -/

/-- `S = w[12]`. -/
def fieldS (w : OpWord) : Bool := w.getLsbD 12

/-- `F = w[11:8]`. -/
def fieldF (w : OpWord) : BitVec 4 := w.extractLsb' 8 4

/-- `D = w[7:0]`. -/
def fieldD (w : OpWord) : Byte := w.extractLsb' 0 8

/-- The thirteen bits below `OPC`, free in the two reserved rows. -/
def fieldX (w : OpWord) : BitVec 13 := w.extractLsb' 0 13

/-- A row of the `OPW` table: the words `w` with `w & mask = value` (R70). -/
structure OpwRow where
  value : OpWord
  mask : OpWord
deriving DecidableEq, Repr

/-- `w` selects the row (R70). -/
def OpwRow.selects (r : OpwRow) (w : OpWord) : Bool := w &&& r.mask == r.value

def rowIdle : OpwRow := ⟨0x0000, 0xFFFF⟩
def rowRx : OpwRow := ⟨0x2000, 0xFF00⟩
def rowCmdf : OpwRow := ⟨0x4000, 0xE0FF⟩
def rowCmda : OpwRow := ⟨0x6000, 0xEF00⟩
def rowQuery : OpwRow := ⟨0x8000, 0xF0FF⟩
def rowReset : OpwRow := ⟨0xE000, 0xFFFF⟩
def rowReservedOpc5 : OpwRow := ⟨0xA000, 0xE000⟩
def rowReservedOpc6 : OpwRow := ⟨0xC000, 0xE000⟩

/-- The eight rows of format `OPW`. -/
def opwRows : List OpwRow :=
  [rowIdle, rowRx, rowCmdf, rowCmda, rowQuery, rowReset, rowReservedOpc5, rowReservedOpc6]

/-! ### Decoding -/

/-- Why something presented is no instruction of the table. -/
inductive DecodeReject where
  /-- A word of a defined `OPC` with a nonzero must-be-zero field (30_encoding.md R73). -/
  | reservedWord
  /-- Received bytes that do not begin with a start marker (R78). -/
  | noStartMarker
  /-- A marker followed by fewer than five header bytes and not by nothing (R74). -/
  | shortHeader
  /-- A header of neither status row (R76, R79). -/
  | notStatusHeader
  /-- A body and checksum that are not `len + 1` bytes (R75). -/
  | wrongFrameLength
  /-- Bytes that are no `CIRCUIT` frame (R77). -/
  | notCircuitFrame
deriving DecidableEq, Repr

/-- A decoder's answer. -/
inductive Decoded where
  | ok (i : Instr)
  | rejected (r : DecodeReject)
deriving DecidableEq, Repr

/-- Decoding of an operation word (30_encoding.md R70 to R73). -/
def decodeOpw (w : OpWord) : Decoded :=
  if rowIdle.selects w then .ok .idle
  else if rowRx.selects w then .ok (.rx (fieldD w))
  else if rowCmdf.selects w then .ok (.cmdf (featureOfNum (fieldF w)) (fieldS w))
  else if rowCmda.selects w then .ok (.cmda (fieldD w) (fieldS w))
  else if rowQuery.selects w then .ok (.query (featureOfNum (fieldF w)))
  else if rowReset.selects w then .ok .reset
  else if rowReservedOpc5.selects w then .ok (.reservedOpc5 (fieldX w))
  else if rowReservedOpc6.selects w then .ok (.reservedOpc6 (fieldX w))
  else .rejected .reservedWord

/-- The body and the checksum byte of a frame whose length byte is `len` (30_encoding.md R75: `len + 1` bytes are
left after the header). -/
def splitBody (len : Byte) (tail : List Byte) : Option (List Byte × Byte) :=
  match tail.getLast? with
  | none => none
  | some chk => if tail.dropLast.length = len.toNat then some (tail.dropLast, chk) else none

/-- Decoding of what follows a start marker (30_encoding.md R76). -/
def decodeAfterMarker (m : Marker) : List Byte → Decoded
  | [] => match m with
    | .two => .ok .sof2
    | .three => .ok .sof3
  | t :: d :: x :: cmd :: len :: tail =>
    if t = 0x02 ∧ d = 0x0F ∧ x = 0x10 then
      match splitBody len tail with
      | some (body, chk) => .ok (.statusL m cmd len body chk)
      | none => .rejected .wrongFrameLength
    else if t = 0x14 ∧ d = 0x0F then
      match splitBody len tail with
      | some (body, chk) => .ok (.statusE m x cmd len body chk)
      | none => .rejected .wrongFrameLength
    else .rejected .notStatusHeader
  | _ => .rejected .shortHeader

/-- Decoding of a burst of received bytes against the `WIRE_IN` rows; the marker's `0x00` may be absent (R78). -/
def decodeWireIn (bytes : List Byte) : Decoded :=
  match bytes with
  | a :: b :: rest =>
    if a = 0xFF ∧ b = 0xA5 then decodeAfterMarker .two rest
    else if a = 0xFF ∧ b = 0x00 then
      match rest with
      | c :: rest' => if c = 0xA5 then decodeAfterMarker .three rest' else .rejected .noStartMarker
      | [] => .rejected .noStartMarker
    else .rejected .noStartMarker
  | _ => .rejected .noStartMarker

/-- Decoding of an outbound frame by its ten bytes against the `CIRCUIT` row (30_encoding.md R77). -/
def decodeWireOut (bytes : List Byte) : Decoded :=
  match bytes with
  | [a0, a1, a2, a3, dest, remote, a6, a7, st, chk] =>
    if a0 = 0xFF ∧ a1 = 0x00 ∧ a2 = 0xA5 ∧ a3 = 0x10 ∧ a6 = 0x86 ∧ a7 = 0x02 ∧ st &&& 0xFE = 0x00 then
      .ok (.circuit dest remote (st.getLsbD 0) chk)
    else .rejected .notCircuitFrame
  | _ => .rejected .notCircuitFrame

/-- The decoder. -/
def decode : Presented → Decoded
  | .opw w => decodeOpw w
  | .wireIn bytes => decodeWireIn bytes
  | .wireOut bytes => decodeWireOut bytes

/-! ### Encoding -/

/-- `sum8` of 00_scope.md R12: the sum of a list of bytes modulo 256. -/
def sum8 : List Byte → Byte
  | [] => 0
  | b :: bs => b + sum8 bs

/-- The boolean state as a byte, `zext_8(s)` (30_encoding.md R71). -/
def stateByte (on : Bool) : Byte := if on then 0x01 else 0x00

/-- An operation word from its four fields (30_encoding.md R70). -/
def mkOpw (opc : BitVec 3) (s : Bool) (f : BitVec 4) (d : Byte) : OpWord :=
  opc ++ (BitVec.ofBool s ++ (f ++ d))

/-- The `F` field that names a FeatureId (30_encoding.md R72). -/
def featureField (f : FeatureId) : BitVec 4 := BitVec.ofNat 4 (featureNum f).val

/-- The bytes of a start marker (30_encoding.md R78). -/
def markerBytes : Marker → List Byte
  | .two => [0xFF, 0xA5]
  | .three => [0xFF, 0x00, 0xA5]

/-- The first nine bytes of a `CIRCUIT` frame (30_encoding.md R77). -/
def circuitFront (dest remote : Byte) (on : Bool) : List Byte :=
  [0xFF, 0x00, 0xA5, 0x10, dest, remote, 0x86, 0x02, stateByte on]

/-- The encoder: the words or bytes of an instruction. -/
def encode : Instr → Presented
  | .idle => .opw (mkOpw 0b000 false 0 0)
  | .rx b => .opw (mkOpw 0b001 false 0 b)
  | .cmdf f on => .opw (mkOpw 0b010 on (featureField f) 0)
  | .cmda a on => .opw (mkOpw 0b011 on 0 a)
  | .query f => .opw (mkOpw 0b100 false (featureField f) 0)
  | .reset => .opw (mkOpw 0b111 false 0 0)
  | .reservedOpc5 x => .opw (0b101#3 ++ x)
  | .reservedOpc6 x => .opw (0b110#3 ++ x)
  | .sof2 => .wireIn (markerBytes .two)
  | .sof3 => .wireIn (markerBytes .three)
  | .statusL m cmd len body chk => .wireIn (markerBytes m ++ [0x02, 0x0F, 0x10, cmd, len] ++ body ++ [chk])
  | .statusE m main cmd len body chk => .wireIn (markerBytes m ++ [0x14, 0x0F, main, cmd, len] ++ body ++ [chk])
  | .circuit dest remote on chk => .wireOut (circuitFront dest remote on ++ [chk])

/-! ### Table words -/

/-- `n` bytes of a number, least significant first. -/
def bytesOfNat : Nat → Nat → List Byte
  | 0, _ => []
  | n + 1, w => BitVec.ofNat 8 w :: bytesOfNat n (w / 256)

/-- A wire frame's first bytes, followed by zero bytes up to the length its own header gives (30_encoding.md R75). -/
def padFrame (bytes : List Byte) : List Byte :=
  let hdrAt := if bytes.getD 1 0 = 0xA5 then 2 else 3
  if hdrAt + 5 ≤ bytes.length then
    bytes ++ List.replicate (hdrAt + 5 + (bytes.getD (hdrAt + 4) 0).toNat + 1 - bytes.length) 0
  else bytes

/-- What is presented for an instruction whose bits are `w` (entry 10): sixteen bits or fewer are an operation word;
more are the bytes of a wire frame, the first byte lowest, outbound when its first four bytes are a `CIRCUIT` frame's. -/
def presentedOf (nbits w : Nat) : Presented :=
  if nbits ≤ 16 then .opw (BitVec.ofNat 16 w)
  else
    let bytes := bytesOfNat (nbits / 8) w
    if bytes.take 4 = [0xFF, 0x00, 0xA5, 0x10] then .wireOut (bytes ++ List.replicate (10 - bytes.length) 0)
    else .wireIn (padFrame bytes)

/-- The instruction the decoder reads from an instruction whose bits are `w`, numbered as the opcode table does. -/
def decodeTableWord (nbits w : Nat) : Option Instr :=
  match decode (presentedOf nbits w) with
  | .ok i => some i
  | .rejected _ => none

end Sys2Proof
end

