-- ==== Sys2Proof/Config.lean ====
section
/-! DEFINITION. The configuration `Config` of 00_scope.md R7 to R10 as plain data. No operation writes it; a state
carries one (entry 1), and every statement holds for every value of it. -/

namespace Sys2Proof

/-- Header bytes collected after the start marker (00_scope.md R7; 90_conflicts.md C1). -/
abbrev hdrFields : Nat := 5

/-- Capacity of the body buffer, `BODY_CAP` (00_scope.md R7). -/
abbrev bodyCap : Nat := 128

/-- Length of a status payload, `STATUS_LEN` (00_scope.md R7). -/
abbrev statusLen : Nat := 27

/-- Length of an outbound command frame, `CMD_FRAME_LEN` (00_scope.md R7). -/
abbrev cmdFrameLen : Nat := 10

/-- Registry slots, `N_FEATURES` (00_scope.md R7). -/
abbrev nFeatures : Nat := 16

/-- The protocol dialect of 00_scope.md R8: `L` the later generation, `E` the earlier one. -/
inductive Dialect where
  | L
  | E
deriving DecidableEq, Repr

/-- The configuration record. The payload offsets are indices into the 27-byte body; those the spec fixes (hour,
minute, equip1 to equip3) are no fields here (00_scope.md R10). -/
structure Config where
  /-- Which column of the table of R8 applies. -/
  dialect : Dialect
  /-- OPEN `E_MAIN_ADDR` (R8, D13). -/
  eMainAddr : Byte
  /-- OPEN `E_STATUS_CMD`, default `none` (R8, D12). -/
  eStatusCmd : Option Byte
  /-- `BROADCAST_ADDR` of dialect E, which D13 lets a model take as an argument (entry 14). -/
  eBroadcastAddr : Byte
  /-- Whether dialect L's `STATUS_CMD` check is on; off is `STATUS_CMD = none` (R8, D12, entry 14). -/
  lStatusCmdOn : Bool
  /-- OPEN `REMOTE_ADDR` (R8, D35). -/
  remoteAddr : Byte
  /-- `feature_addr`, by FeatureId number (R9, D22). -/
  featureAddr : Vector (Option Byte) 16
  /-- `tx_guard`, default false (R9, D24). -/
  txGuard : Bool
  /-- OPEN payload offsets (R10; 10_state.md R33). -/
  offUom : Fin 27
  offValve : Fin 27
  offDelay : Fin 27
  offPoolTemp : Fin 27
  offWaterTemp : Fin 27
  offAirTemp : Fin 27
  offSolarTemp : Fin 27
  offHeaterActive : Fin 27
  offHeaterMode : Fin 27
  offDst : Fin 27
deriving DecidableEq, Repr

/-- The ten OPEN offsets, in the order the source lists the fields. -/
def Config.openOffsets (c : Config) : List (Fin 27) :=
  [c.offUom, c.offValve, c.offDelay, c.offPoolTemp, c.offWaterTemp, c.offAirTemp, c.offSolarTemp, c.offHeaterActive,
    c.offHeaterMode, c.offDst]

/-- The constraint of 00_scope.md R10 on the OPEN offsets: pairwise distinct, each in 5..26. No meaning needs it. -/
def Config.wf (c : Config) : Bool :=
  decide c.openOffsets.Nodup && c.openOffsets.all (fun o => decide (5 ≤ o.val))

/-- Configuration K of 95_test_vectors.md with its instantiation T of the two offsets that rules read.
DESIGN CHOICE (entries 1, 15): the configuration a state has at reset; the values K does not name are chosen. -/
def Config.testK : Config where
  dialect := .L
  eMainAddr := 0x10
  eStatusCmd := none
  eBroadcastAddr := 0x0F
  lStatusCmdOn := true
  remoteAddr := 0x20
  featureAddr := #v[none, some 0x10, none, none, none, none, some 0x10, none,
    none, some 0x10, none, none, none, none, none, none]
  txGuard := false
  offUom := 10
  offValve := 11
  offDelay := 12
  offPoolTemp := 13
  offWaterTemp := 14
  offAirTemp := 18
  offSolarTemp := 19
  offHeaterActive := 20
  offHeaterMode := 21
  offDst := 22

end Sys2Proof
end

