-- ==== Sys2Proof/Machine/State.lean ====
section
/-! DEFINITION. The state of the block as plain data (10_state.md R20), the outputs of a step (00_scope.md R6), the
reasons a step can stop, and the state after reset (10_state.md R40). -/

namespace Sys2Proof.Machine

/-- The parse phase (10_state.md R21); code 3 cannot be written down. -/
inductive Phase where
  | scanning
  | readingHeader
  | readingBody
deriving DecidableEq, Repr

/-- The five header bytes `hdr[0..4]`, in wire order (10_state.md R24, R32; 00_scope.md R13). -/
structure Header where
  typ : Byte
  dst : Byte
  src : Byte
  cmd : Byte
  len : Byte
deriving DecidableEq, Repr

/-- The cause codes 0 to 7 (60_exceptions.md R181); codes 8 to 15 cannot be written down. -/
inductive Cause where
  | none
  | headerRejected
  | oversizedBody
  | malformedStatusLength
  | unknownInnerCommand
  | cmdNoBinding
  | cmdMidframe
  | illegalOp
deriving DecidableEq, Repr

/-- `DecodeEvent` of 00_scope.md R13. -/
inductive DecodeEvent where
  | needMoreInput
  | frameReady (h : Header) (body : List Byte)
  | frameDiscarded
deriving DecidableEq, Repr

/-- The two telemetry channels of 00_scope.md R6. -/
inductive Channel where
  | air
  | water
deriving DecidableEq, Repr

/-- The outputs of a step (00_scope.md R6: ten forms, three of them the values of `DecodeEvent`). -/
inductive Output where
  | ev (e : DecodeEvent)
  | yield
  | diag (c : Cause)
  | featurePush (f : FeatureId) (v : Bool)
  | telemetryPush (ch : Channel) (v : Byte)
  | de (v : Bool)
  | tx (b : Byte)
  | queryResult (v : Bool)
deriving DecidableEq, Repr

/-- The body buffer as address and byte pairs, addresses strictly rising, no entry equal to what an unlisted address
reads as (Machine/Ops.lean). -/
abbrev Memory := List Host.Cell

/-- The state. The first ten fields are the record of 10_state.md R20, whole; `cfg`, `port` and `out` are the model's
own (entries 1, 2, 3). -/
structure State where
  /-- `phase` (R21). -/
  phase : Phase
  /-- `cnt`, bytes consumed in the current phase (R22). -/
  cnt : Byte
  /-- `prev`, the last byte seen while Scanning (R23). -/
  prev : Byte
  /-- `prev2`, the byte before `prev` (R23). -/
  prev2 : Byte
  /-- `hdr[0..4]` (R24). -/
  hdr : Header
  /-- `body[0..127]` (R25; 20_memory.md R50). -/
  body : Memory
  /-- `reg[0..15]`, the FeatureRegistry, by FeatureId number (R26). -/
  reg : Vector Bool 16
  /-- `last_status[0..26]` (R27). -/
  lastStatus : Vector Byte 27
  /-- `status_valid` (R27). -/
  statusValid : Bool
  /-- `diag` (R28). -/
  diag : Cause
  /-- The configuration, a parameter of the spec's `step` (00_scope.md R5, R7 to R10; entry 1). -/
  cfg : Config
  /-- What the host will present, oldest first (00_scope.md R5; entry 2). -/
  port : List Presented
  /-- The ordered outputs of the latest step (00_scope.md R5, R6; entry 3). -/
  out : List Output
deriving DecidableEq, Repr

/-- Where a step stops. Both are raised only by the `RX` byte fed in a state outside the invariant of 10_state.md R34,
which no run from reset reaches (20_memory.md R56); stopping there is safe (entry 7). -/
inductive Fault where
  /-- Raised by `RX` (and by a wire burst, which feeds bytes) when `phase = ReadingHeader` and `cnt` is above 4: there
  is no such header byte. Safe. -/
  | hdrIndexOutOfRange
  /-- Raised by `RX` (and by a wire burst) when `phase = ReadingBody` and `cnt` is above 127: there is no such cell of
  the body buffer. Safe. -/
  | bodyIndexOutOfRange
deriving DecidableEq, Repr

/-- What a step has no meaning for. -/
inductive Refusal where
  /-- Raised by an arm of `exec` whose instruction has no meaning yet; no arm does. Safe. -/
  | notModelled (mnemonic : String)
  /-- Raised by a step that is asked to put on the wire bytes that are no `CIRCUIT` frame: the framer emits no other
  frame (42_cmd_framer.md R159; entry 9). No instruction raises it. Safe. -/
  | frameNotEmitted
deriving DecidableEq, Repr

/-- The reset record (10_state.md R40; 70_reset_and_hazards.md R210, R211) under a given configuration: what power-up
leaves. `body` is unspecified there and lists nothing here (entry 4). -/
def State.resetWith (cfg : Config) : State where
  phase := .scanning
  cnt := 0
  prev := 0
  prev2 := 0
  hdr := ⟨0, 0, 0, 0, 0⟩
  body := []
  reg := Vector.replicate 16 false
  lastStatus := Vector.replicate 27 0
  statusValid := false
  diag := .none
  cfg := cfg
  port := []
  out := []

/-- The machine right after reset, with configuration K (entry 1) and nothing presented (entry 2). -/
def State.reset : State := State.resetWith Config.testK

end Sys2Proof.Machine
end

