-- ==== Sys2Proof/Machine/Operands.lean ====
section
/-! DEFINITION. Reading configuration constants, registers and payload fields: every operand form the rules use. -/

namespace Sys2Proof.Machine

/-! ### Constants of the dialect (00_scope.md R8) -/

/-- `STATUS_TYPE`. -/
def statusType (c : Config) : Byte :=
  match c.dialect with
  | .L => 0x02
  | .E => 0x14

/-- `BROADCAST_ADDR`: `0x0F`, which dialect E may take as an argument (D13, entry 14). -/
def broadcastAddr (c : Config) : Byte :=
  match c.dialect with
  | .L => 0x0F
  | .E => c.eBroadcastAddr

/-- `MAIN_ADDR`. -/
def mainAddr (c : Config) : Byte :=
  match c.dialect with
  | .L => 0x10
  | .E => c.eMainAddr

/-- `STATUS_CMD`, or `none` when the check is off. -/
def statusCmd (c : Config) : Option Byte :=
  match c.dialect with
  | .L => if c.lStatusCmdOn then some 0x02 else none
  | .E => c.eStatusCmd

/-- `CMD_TYPE`, the same in both dialects (D36). -/
def cmdType : Byte := 0x10

/-- `CMD_CODE`, "circuit on/off". -/
def cmdCode : Byte := 0x86

/-- `CMD_LEN`, emitted as a literal (90_conflicts.md C4). -/
def cmdLen : Byte := 0x02

/-- `feature_addr(f)` (00_scope.md R9). -/
def featureAddr (c : Config) (f : FeatureId) : Option Byte := c.featureAddr[featureNum f]

/-! ### The feature registry (10_state.md R26, R30) -/

/-- `reg[f]`. -/
def regGet (s : State) (f : FeatureId) : Bool := s.reg[featureNum f]

/-- `reg[f] <- v`. -/
def regSet (f : FeatureId) (v : Bool) (s : State) : State := { s with reg := s.reg.set (featureNum f) v }

/-! ### Header bytes (10_state.md R24) -/

/-- `hdr[i] <- b`, where there is a header byte `i`. -/
def Header.put (h : Header) (i : Nat) (b : Byte) : Option Header :=
  match i with
  | 0 => some { h with typ := b }
  | 1 => some { h with dst := b }
  | 2 => some { h with src := b }
  | 3 => some { h with cmd := b }
  | 4 => some { h with len := b }
  | _ => none

/-! ### The status payload (10_state.md R31, R33) -/

/-- A status payload: 27 bytes. -/
abbrev Payload := Vector Byte 27

/-- The fifteen named fields of R33. -/
inductive PayloadField where
  | hour
  | minute
  | equip1
  | equip2
  | equip3
  | uom
  | valve
  | delay
  | poolTemp
  | waterTemp
  | airTemp
  | solarTemp
  | heaterActive
  | heaterMode
  | dst
deriving DecidableEq, Repr

/-- The offset of a payload field: five by listing order (D16), ten from the configuration (00_scope.md R10). -/
def payloadOffset (c : Config) : PayloadField → Fin 27
  | .hour => 0
  | .minute => 1
  | .equip1 => 2
  | .equip2 => 3
  | .equip3 => 4
  | .uom => c.offUom
  | .valve => c.offValve
  | .delay => c.offDelay
  | .poolTemp => c.offPoolTemp
  | .waterTemp => c.offWaterTemp
  | .airTemp => c.offAirTemp
  | .solarTemp => c.offSolarTemp
  | .heaterActive => c.offHeaterActive
  | .heaterMode => c.offHeaterMode
  | .dst => c.offDst

/-- The byte of a payload at a named field. -/
def payloadByte (c : Config) (p : Payload) (fld : PayloadField) : Byte := p[payloadOffset c fld]

/-- Bit `i` of a byte, bit 0 least significant (00_scope.md R11; D14, entry 12). -/
def bitOf (v : Byte) (i : Nat) : Bool := v.getLsbD i

/-- `EQUIP1_MAP` (10_state.md R31): bits 0 to 5 of equip1. -/
def equip1Map : List (Nat × FeatureId) :=
  [(0, .pool), (1, .spa), (2, .cleaner), (3, .airBlower), (4, .spaLight), (5, .poolLight)]

/-- `EQUIP2_MAP` (10_state.md R31): bits 0 and 1 of equip2. -/
def equip2Map : List (Nat × FeatureId) :=
  [(0, .waterFeature), (1, .spillway)]

/-- The states a payload reports, in the order of the two loops of 41_status_interp.md R136. -/
def reported (c : Config) (p : Payload) : List (FeatureId × Bool) :=
  equip1Map.map (fun e => (e.2, bitOf (payloadByte c p .equip1) e.1)) ++
    equip2Map.map (fun e => (e.2, bitOf (payloadByte c p .equip2) e.1))

/-! ### Numeric codes -/

/-- The code of a phase (10_state.md R21). -/
def phaseCode : Phase → BitVec 2
  | .scanning => 0
  | .readingHeader => 1
  | .readingBody => 2

/-- The code of a cause (60_exceptions.md R181). -/
def causeCode : Cause → BitVec 4
  | .none => 0
  | .headerRejected => 1
  | .oversizedBody => 2
  | .malformedStatusLength => 3
  | .unknownInnerCommand => 4
  | .cmdNoBinding => 5
  | .cmdMidframe => 6
  | .illegalOp => 7

end Sys2Proof.Machine
end

