-- ==== Sys2Proof/Machine/Flags.lean ====
section
/-! DEFINITION. The block has no condition flags (10_state.md R29). What it computes as one bit are the tests below:
the start marker, the header checks, the interpreter's guard and the mid-frame guard. -/

namespace Sys2Proof.Machine

/-- `is_sof(p2, p1, b)` (40_rx_sync.md R101): exactly `FF A5` and `FF 00 A5` open a frame. -/
def isSof (p2 p1 b : Byte) : Bool :=
  b == 0xA5 && (p1 == 0xFF || (p1 == 0x00 && p2 == 0xFF))

/-- The status triple of 40_rx_sync.md R105. -/
def tripleOk (c : Config) (h : Header) : Bool :=
  h.typ == statusType c && h.src == mainAddr c && h.dst == broadcastAddr c

/-- A declared length above the buffer's capacity, compared unsigned (40_rx_sync.md R106). -/
def oversized (h : Header) : Bool := decide (bodyCap < h.len.toNat)

/-- The command byte against `STATUS_CMD`, which `none` switches off (41_status_interp.md R132). -/
def innerCmdOk (c : Config) (h : Header) : Bool :=
  match statusCmd c with
  | none => true
  | some k => h.cmd == k

/-- The interpreter's guard passes (41_status_interp.md R132). -/
def guardOk (c : Config) (h : Header) : Bool := tripleOk c h && innerCmdOk c h

/-- The mid-frame guard fires (42_cmd_framer.md R157). -/
def midFrame (s : State) : Bool := s.cfg.txGuard && decide (s.phase ≠ .scanning)

end Sys2Proof.Machine
end

