-- ==== Sys2Proof/Machine/Ops.lean ====
section
/-! DEFINITION. The named operations over the body buffer and the registers: emitting, entering Scanning, the discard
and refusal procedures (the block's exceptions, 60_exceptions.md R185, R186; there is no return from one, R192), and
the transmit sequence. Each is the pseudocode of its rule, a function from state to state. -/

namespace Sys2Proof.Machine

/-- What a meaning answers. -/
abbrev Result := Host.Outcome State Fault Refusal

/-- Continue from a next state; stop where the first part stopped. -/
def andThen (r : Result) (k : State → Result) : Result :=
  match r with
  | .next s => k s
  | .fault f => .fault f
  | .refused f => .refused f

/-! ### The body buffer (20_memory.md R50) -/

/-- What a cell that nothing has written reads as. DESIGN CHOICE (entry 4): the spec leaves it unspecified (10_state.md
R25); no run reads one. -/
def Memory.unlisted : Byte := 0x00

/-- `MemRead(a, 1)` (00_scope.md R12). -/
def Memory.read : Memory → Nat → Byte
  | [], _ => Memory.unlisted
  | (k, v) :: m, a => if k = a then v else Memory.read m a

/-- `MemWrite(a, 1, v)` (00_scope.md R12), keeping the canonical form. -/
def Memory.write : Memory → Nat → Byte → Memory
  | [], a, v => if v = Memory.unlisted then [] else [(a, v)]
  | (k, w) :: m, a, v =>
    if a < k then (if v = Memory.unlisted then (k, w) :: m else (a, v) :: (k, w) :: m)
    else if a = k then (if v = Memory.unlisted then m else (a, v) :: m)
    else (k, w) :: Memory.write m a v

/-- The canonical form: addresses strictly rising and below `BODY_CAP`, no entry equal to an unlisted cell's byte. -/
def Memory.wf : Memory → Bool
  | [] => true
  | (k, v) :: m => decide (k < bodyCap) && (v != Memory.unlisted) && m.all (fun c => decide (k < c.1)) && Memory.wf m

/-- `body[0..n-1]` as a list (40_rx_sync.md R109). -/
def bodyBytes (s : State) (n : Nat) : List Byte := (List.range n).map s.body.read

/-! ### Outputs (00_scope.md R6, R12) -/

/-- `emit o`: append to the step's output list. -/
def emit (o : Output) (s : State) : State := { s with out := s.out ++ [o] }

/-- An operation begins with an empty output list (00_scope.md R5). -/
def begin (s : State) : State := { s with out := [] }

/-! ### The decoder's phase (40_rx_sync.md R114) -/

/-- `enter_scanning()`. -/
def enterScanning (s : State) : State :=
  { s with phase := .scanning, cnt := 0, prev := 0x00, prev2 := 0x00 }

/-! ### Discard and refusal (60_exceptions.md R185, R186) -/

/-- `raise Discard(c)`: enter Scanning, record the cause, emit `Ev(FrameDiscarded)` then `Diag(c)`. -/
def raiseDiscard (c : Cause) (s : State) : State :=
  emit (.diag c) (emit (.ev .frameDiscarded) { enterScanning s with diag := c })

/-- `raise Refuse(c)`: record the cause, emit `Diag(c)`, change nothing else. -/
def raiseRefuse (c : Cause) (s : State) : State := emit (.diag c) { s with diag := c }

/-! ### The command frame and its transmission (30_encoding.md R77; 42_cmd_framer.md R152) -/

/-- `cmd_frame(dest, s)`. -/
def cmdFrame (c : Config) (dest : Byte) (on : Bool) : List Byte :=
  let p := [0xFF, 0x00, 0xA5, cmdType, dest, c.remoteAddr, cmdCode, cmdLen, stateByte on]
  p ++ [sum8 p]

/-- `emit TX(b)` for each byte of a list, in order. -/
def emitTx : List Byte → State → State
  | [], s => s
  | b :: bs, s => emitTx bs (emit (.tx b) s)

/-- `transmit(fr)`: `DE(1)`, the bytes, `DE(0)`. -/
def transmit (fr : List Byte) (s : State) : State := emit (.de false) (emitTx fr (emit (.de true) s))

end Sys2Proof.Machine
end

