-- ==== Sys2Proof/Machine/Framer.lean ====
section
/-! DEFINITION. The command framer (42_cmd_framer.md): `CMDF` and `CMDA`. -/

namespace Sys2Proof.Machine

/-- `CMDF f, s` (R154): the mid-frame guard (R157), then the binding, then transmission, the optimistic registry write
and the push (R155). -/
def execCmdf (f : FeatureId) (on : Bool) (s : State) : Result :=
  if midFrame s then .next (raiseRefuse .cmdMidframe (begin s))
  else
    match featureAddr s.cfg f with
    | none => .next (raiseRefuse .cmdNoBinding (begin s))
    | some dest => .next (emit (.featurePush f on) (regSet f on (transmit (cmdFrame s.cfg dest on) (begin s))))

/-- The raw-address send: guard, then transmission, no registry write (R156). -/
def sendRaw (dest : Byte) (on : Bool) (s : State) : State :=
  if midFrame s then raiseRefuse .cmdMidframe s else transmit (cmdFrame s.cfg dest on) s

/-- `CMDA a, s` (R156). -/
def execCmda (a : Byte) (on : Bool) (s : State) : Result := .next (sendRaw a on (begin s))

end Sys2Proof.Machine
end

