-- ==== Sys2Proof/Machine/Housekeeping.lean ====
section
/-! DEFINITION. The housekeeping operations and reserved words (43_host_ops.md). -/

namespace Sys2Proof.Machine

/-- `IDLE` (R170): no state change, no output. -/
def execIdle (s : State) : Result := .next (begin s)

/-- `QUERY f` (R171). -/
def execQuery (f : FeatureId) (s : State) : Result := .next (emit (.queryResult (regGet s f)) (begin s))

/-- `RESET` (R173): the reset record; `body` is not written and there is no output. -/
def execReset (s : State) : Result :=
  .next { begin s with
    phase := .scanning, cnt := 0, prev := 0x00, prev2 := 0x00
    hdr := ⟨0x00, 0x00, 0x00, 0x00, 0x00⟩
    reg := Vector.replicate 16 false
    lastStatus := Vector.replicate 27 0x00
    statusValid := false
    diag := .none }

/-- The reserved-word step (R172). -/
def refuseIllegal (s : State) : State := raiseRefuse .illegalOp s

/-- `RESERVED.OPC5` (R172): the thirteen other bits are ignored. -/
def execReservedOpc5 (_x : BitVec 13) (s : State) : Result := .next (refuseIllegal (begin s))

/-- `RESERVED.OPC6` (R172): the thirteen other bits are ignored. -/
def execReservedOpc6 (_x : BitVec 13) (s : State) : Result := .next (refuseIllegal (begin s))

end Sys2Proof.Machine
end

