-- ==== Sys2Proof/Machine/Interp.lean ====
section
/-! DEFINITION. The status payload decoder (41_status_interp.md), the second half of the `RX` that completes a frame. -/

namespace Sys2Proof.Machine

/-- `retain(B)` (R135). -/
def retain (p : Payload) (s : State) : State := { s with lastStatus := p, statusValid := true }

/-- One turn of the loops of R136: push the value if it changes, then write it. -/
def refresh (s : State) (e : FeatureId × Bool) : State :=
  regSet e.1 e.2 (if regGet s e.1 ≠ e.2 then emit (.featurePush e.1 e.2) s else s)

/-- `update_registry(B)` (R136). -/
def updateRegistry (p : Payload) (s : State) : State := (reported s.cfg p).foldl refresh s

/-- `push_telemetry(B)` (R137): air, then water, the bytes as they are. -/
def pushTelemetry (p : Payload) (s : State) : State :=
  emit (.telemetryPush .water (payloadByte s.cfg p .waterTemp))
    (emit (.telemetryPush .air (payloadByte s.cfg p .airTemp)) s)

/-- The accepted part of `interpret` (R130): retain, update, push. -/
def acceptStatus (p : Payload) (s : State) : State := pushTelemetry p (updateRegistry p (retain p s))

/-- `interpret(h, B)` (R130): the length check (R131), then the guard (R132), then acceptance. -/
def interpret (h : Header) (b : List Byte) (s : State) : State :=
  if hlen : b.length = statusLen then
    if guardOk s.cfg h then acceptStatus ⟨b.toArray, hlen⟩ s
    else raiseRefuse .unknownInnerCommand s
  else raiseRefuse .malformedStatusLength s

end Sys2Proof.Machine
end

