-- ==== Sys2Proof/Machine/Rx.lean ====
section
/-! DEFINITION. The `RX` operation (40_rx_sync.md): Scanning, ReadingHeader, ReadingBody; and a burst of bytes fed one
after another. -/

namespace Sys2Proof.Machine

/-- `rx_scan(b)` (R102). -/
def rxScan (b : Byte) (s : State) : State :=
  emit (.ev .needMoreInput)
    (if isSof s.prev2 s.prev b then { s with phase := .readingHeader, cnt := 0, prev := 0x00, prev2 := 0x00 }
     else { s with prev2 := s.prev, prev := b })

/-- `header_complete()`: the triple (R105), the oversize check (R106), a non-empty body (R107), an empty one (R110). -/
def headerComplete (s : State) : State :=
  if tripleOk s.cfg s.hdr = false then raiseDiscard .headerRejected s
  else if oversized s.hdr then raiseDiscard .oversizedBody s
  else if s.hdr.len = 0 then
    interpret s.hdr [] (emit (.ev (.frameReady s.hdr [])) (enterScanning s))
  else emit .yield (emit (.ev .needMoreInput) { s with phase := .readingBody, cnt := 0 })

/-- `rx_header(b)` (R104). A fifth byte completes the header; an index past it faults (entry 7). -/
def rxHeader (b : Byte) (s : State) : Result :=
  match s.hdr.put s.cnt.toNat b with
  | none => .fault .hdrIndexOutOfRange
  | some h =>
    let s1 := { s with hdr := h, cnt := s.cnt + 1 }
    if s1.cnt.toNat < hdrFields then .next (emit (.ev .needMoreInput) s1) else .next (headerComplete s1)

/-- `body_complete()` (R109). The list is read before Scanning is entered. -/
def bodyComplete (s : State) : State :=
  let bytes := bodyBytes s s.hdr.len.toNat
  interpret s.hdr bytes (emit (.ev (.frameReady s.hdr bytes)) (enterScanning s))

/-- `rx_body(b)` (R108). An index past the buffer faults (20_memory.md R56; entry 7). -/
def rxBody (b : Byte) (s : State) : Result :=
  if s.cnt.toNat < bodyCap then
    let s1 := { s with body := s.body.write s.cnt.toNat b, cnt := s.cnt + 1 }
    if s1.cnt.toNat < s1.hdr.len.toNat then .next (emit (.ev .needMoreInput) s1) else .next (bodyComplete s1)
  else .fault .bodyIndexOutOfRange

/-- `RX(b)` by phase (R100), appending to the output list. Exactly one `Ev` and no index outside a buffer: R115 items 4, 5. -/
def rxByte (b : Byte) (s : State) : Result :=
  match s.phase with
  | .scanning => .next (rxScan b s)
  | .readingHeader => rxHeader b s
  | .readingBody => rxBody b s

/-- A burst of received bytes, each by `RX` in arrival order (R103; entry 5). The properties of whole byte sequences that
R115 asks for (items 1 to 3) are properties of this function. -/
def feed : List Byte → State → Result
  | [], s => .next s
  | b :: bs, s => andThen (rxByte b s) (feed bs)

/-- `RX b` (R100). -/
def execRx (b : Byte) (s : State) : Result := rxByte b (begin s)

end Sys2Proof.Machine
end

