-- ==== Sys2Proof/Machine/Wire.lean ====
section
/-! DEFINITION. The wire-frame rows of the opcode table (30_encoding.md R84): an inbound frame is decoded by the `RX`
rules, its bytes fed in order; the outbound frame is produced by the framer. Also what a step does with something
presented that is no row. -/

namespace Sys2Proof.Machine

/-- `SOF2`: receive `FF A5` (R78; 40_rx_sync.md R101, R102). -/
def execSof2 (s : State) : Result := feed (markerBytes .two) (begin s)

/-- `SOF3`: receive `FF 00 A5` (R78; 40_rx_sync.md R101, R102). -/
def execSof3 (s : State) : Result := feed (markerBytes .three) (begin s)

/-- `STATUS.L`: receive the frame's bytes, the checksum byte last (R76, R81). -/
def execStatusL (m : Marker) (cmd len : Byte) (body : List Byte) (chk : Byte) (s : State) : Result :=
  feed (markerBytes m ++ [0x02, 0x0F, 0x10, cmd, len] ++ body ++ [chk]) (begin s)

/-- `STATUS.E`: receive the frame's bytes, the checksum byte last (R76, R81). -/
def execStatusE (m : Marker) (main cmd len : Byte) (body : List Byte) (chk : Byte) (s : State) : Result :=
  feed (markerBytes m ++ [0x14, 0x0F, main, cmd, len] ++ body ++ [chk]) (begin s)

/-- `CIRCUIT`: the framer produces the frame for a destination and a state, as `CMDA` does (R77, R84; 42_cmd_framer.md
R156, entry 6). Bytes 5 and 9 are results: `REMOTE_ADDR` and the sum. -/
def execCircuit (dest _remote : Byte) (on : Bool) (_chk : Byte) (s : State) : Result := .next (sendRaw dest on (begin s))

/-- What a step does with something presented that the decoder rejects: a reserved word is refused with `ILLEGAL_OP`
(43_host_ops.md R172); other received bytes are fed all the same (40_rx_sync.md R103); bytes that are no `CIRCUIT`
frame cannot be emitted (42_cmd_framer.md R159; entry 9). -/
def runRejected (p : Presented) (s : State) : Result :=
  match p with
  | .opw _ => .next (refuseIllegal (begin s))
  | .wireIn bytes => feed bytes (begin s)
  | .wireOut _ => .refused .frameNotEmitted

end Sys2Proof.Machine
end

