-- ==== Sys2Proof/Machine/Dispatch.lean ====
section
/-! DEFINITION. One arm per constructor of `Instr`. -/

namespace Sys2Proof.Machine

/-- The meaning of an instruction: one operation of 30_encoding.md R70, or one wire frame. -/
def exec (i : Instr) (s : State) : Host.Outcome State Fault Refusal :=
  match i with
  | .idle => Sys2Proof.Machine.execIdle s
  | .rx b => Sys2Proof.Machine.execRx b s
  | .cmdf f on => Sys2Proof.Machine.execCmdf f on s
  | .cmda a on => Sys2Proof.Machine.execCmda a on s
  | .query f => Sys2Proof.Machine.execQuery f s
  | .reset => Sys2Proof.Machine.execReset s
  | .reservedOpc5 x => Sys2Proof.Machine.execReservedOpc5 x s
  | .reservedOpc6 x => Sys2Proof.Machine.execReservedOpc6 x s
  | .sof2 => Sys2Proof.Machine.execSof2 s
  | .sof3 => Sys2Proof.Machine.execSof3 s
  | .statusL m cmd len body chk => Sys2Proof.Machine.execStatusL m cmd len body chk s
  | .statusE m main cmd len body chk => Sys2Proof.Machine.execStatusE m main cmd len body chk s
  | .circuit dest remote on chk => Sys2Proof.Machine.execCircuit dest remote on chk s

end Sys2Proof.Machine
end

