-- ==== Sys2Proof/Machine/Step.lean ====
section
/-! DEFINITION. One step: take what the host presents next, decode it, run it (00_scope.md R5). -/

namespace Sys2Proof.Machine

/-- Decode and run one thing presented. -/
def runPresented (p : Presented) (s : State) : Host.Outcome State Fault Refusal :=
  match decode p with
  | .ok i => exec i s
  | .rejected _ => runRejected p s

/-- One step. With nothing presented nothing happens (70_reset_and_hazards.md R230). -/
def step (s : State) : Host.Outcome State Fault Refusal :=
  match s.port with
  | [] => .next (begin s)
  | p :: rest => runPresented p { s with port := rest }

/-- `s` with an instruction's bits presented next (entries 2, 10). -/
def State.withFetchWord (s : State) (nbits w : Nat) : State := { s with port := presentedOf nbits w :: s.port }

end Sys2Proof.Machine
end

