-- ==== Sys2Proof/Machine/HostSide.lean ====
section
/-! DEFINITION. The host's side as functions over the model, no part of a step (entry 16): the poll loop
(43_host_ops.md R174), the pseudo-operations (30_encoding.md R83) and the assembler's spelling (R82). -/

namespace Sys2Proof.Machine

/-! ### POLL (43_host_ops.md R174) -/

/-- What a poll leaves: the state, the bytes still queued, and the outputs of the operations it presented. -/
structure PollResult where
  state : State
  rest : List Byte
  outs : List Output
deriving DecidableEq, Repr

/-- A poll ends after an operation with one of these among its outputs: `Yield` or a frame event. -/
def stopsPoll : Output → Bool
  | .yield => true
  | .ev .needMoreInput => false
  | .ev (.frameReady _ _) => true
  | .ev .frameDiscarded => true
  | .diag _ => false
  | .featurePush _ _ => false
  | .telemetryPush _ _ => false
  | .de _ => false
  | .tx _ => false
  | .queryResult _ => false

/-- The loop of `POLL`. -/
def pollLoop : List Byte → List Output → State → Host.Outcome PollResult Fault Refusal
  | [], outs, s => .next ⟨s, [], outs⟩
  | b :: q, outs, s =>
    match execRx b s with
    | .next t => if t.out.any stopsPoll then .next ⟨t, q, outs ++ t.out⟩ else pollLoop q (outs ++ t.out) t
    | .fault f => .fault f
    | .refused r => .refused r

/-- `POLL(Q)`: an empty queue presents `IDLE`. -/
def poll (q : List Byte) (s : State) : Host.Outcome PollResult Fault Refusal :=
  match q with
  | [] =>
    match execIdle s with
    | .next t => .next ⟨t, [], t.out⟩
    | .fault f => .fault f
    | .refused r => .refused r
  | b :: q' => pollLoop (b :: q') [] s

/-! ### Pseudo-operations (30_encoding.md R83) -/

/-- The pseudo-operations with a static expansion. -/
inductive PseudoOp where
  | rxs (bytes : List Byte)
  | statusl (cmd : Byte) (body : List Byte)
  | noise (bytes : List Byte)
deriving DecidableEq, Repr

/-- The bytes hold `FF A5` or `FF 00 A5` somewhere. -/
def holdsMarker : List Byte → Bool
  | [] => false
  | b :: bs => (b == 0xFF && (bs.take 1 == [0xA5] || bs.take 2 == [0x00, 0xA5])) || holdsMarker bs

/-- The bytes end in `FF` or `FF 00`. -/
def endsInHalfMarker (bs : List Byte) : Bool :=
  bs.reverse.take 1 == [0xFF] || bs.reverse.take 2 == [0x00, 0xFF]

/-- The wire bytes of `STATUSL cmd, B`: the frame of dialect L and `sum8` of all bytes before the last. -/
def statuslBytes (cmd : Byte) (body : List Byte) : List Byte :=
  let front := [0xFF, 0x00, 0xA5, 0x02, 0x0F, 0x10, cmd, 0x1B] ++ body
  front ++ [sum8 front]

/-- The expansion, or `none` where the assembler's check fails (a body that is not 27 bytes, noise with a marker). -/
def PseudoOp.expand : PseudoOp → Option (List Instr)
  | .rxs bytes => some (bytes.map .rx)
  | .statusl cmd body => if body.length = statusLen then some ((statuslBytes cmd body).map .rx) else none
  | .noise bytes => if holdsMarker bytes || endsInHalfMarker bytes then none else some (bytes.map .rx)

/-! ### Assembler spelling (30_encoding.md R82) -/

/-- The name of a feature, or its number for a reserved slot. -/
def featureName : FeatureId → String
  | .unknown => "Unknown"
  | .spa => "Spa"
  | .cleaner => "Cleaner"
  | .airBlower => "AirBlower"
  | .spaLight => "SpaLight"
  | .poolLight => "PoolLight"
  | .pool => "Pool"
  | .waterFeature => "WaterFeature"
  | .spillway => "Spillway"
  | .aux => "Aux"
  | .reserved10 => "10"
  | .reserved11 => "11"
  | .reserved12 => "12"
  | .reserved13 => "13"
  | .reserved14 => "14"
  | .reserved15 => "15"

/-- One hexadecimal digit. -/
def hexDigit (n : BitVec 4) : Char := "0123456789ABCDEF".toList.getD n.toNat '0'

/-- `0xNN`. -/
def hexByte (b : Byte) : String := "0x" ++ String.ofList [hexDigit (b.extractLsb' 4 4), hexDigit (b.extractLsb' 0 4)]

/-- `on` or `off`. -/
def onOff (on : Bool) : String := if on then "on" else "off"

/-- The source line of an operation; reserved words and wire frames have none. -/
def asmLine : Instr → Option String
  | .idle => some "IDLE"
  | .rx b => some ("RX " ++ hexByte b)
  | .cmdf f on => some ("CMDF " ++ featureName f ++ ", " ++ onOff on)
  | .cmda a on => some ("CMDA " ++ hexByte a ++ ", " ++ onOff on)
  | .query f => some ("QUERY " ++ featureName f)
  | .reset => some "RESET"
  | .reservedOpc5 _ => none
  | .reservedOpc6 _ => none
  | .sof2 => none
  | .sof3 => none
  | .statusL _ _ _ _ _ => none
  | .statusE _ _ _ _ _ _ => none
  | .circuit _ _ _ _ => none

end Sys2Proof.Machine
end

