-- ==== Sys2Proof/Safety.lean ====
section
/-! DEFINITION. The state invariant of 10_state.md R34, items 1 to 5 (item 6 is about steps, not states), with the
canonical form of the body buffer. -/

namespace Sys2Proof.Machine

/-- R34 item 2: Scanning counts nothing. -/
abbrev scanningInv (s : State) : Prop := s.phase = .scanning → s.cnt = 0

/-- R34 item 3. -/
abbrev readingHeaderInv (s : State) : Prop :=
  s.phase = .readingHeader → s.cnt.toNat ≤ 4 ∧ s.prev = 0x00 ∧ s.prev2 = 0x00

/-- R34 item 4. -/
abbrev readingBodyInv (s : State) : Prop :=
  s.phase = .readingBody →
    1 ≤ s.hdr.len.toNat ∧ s.hdr.len.toNat ≤ 128 ∧ s.cnt.toNat < s.hdr.len.toNat ∧
    s.hdr.typ = statusType s.cfg ∧ s.hdr.dst = broadcastAddr s.cfg ∧ s.hdr.src = mainAddr s.cfg ∧
    s.prev = 0x00 ∧ s.prev2 = 0x00

/-- R34 item 5. -/
abbrev statusInv (s : State) : Prop := s.statusValid = false → s.lastStatus = Vector.replicate 27 0x00

/-- The invariant of R34 (item 1 is in the type of `phase`). -/
abbrev Inv (s : State) : Prop :=
  scanningInv s ∧ readingHeaderInv s ∧ readingBodyInv s ∧ statusInv s ∧ s.body.wf = true

end Sys2Proof.Machine
end

