-- ==== Sys2Proof/WellFormed.lean ====
section
/-! DEFINITION. Which terms of `Instr` are instructions. Operand ranges are in the types; what is left are the relations
between a wire frame's own fields. -/

namespace Sys2Proof

/-- A status frame carries exactly `len` body bytes (30_encoding.md R75); a `CIRCUIT` frame's last byte is the sum of
the nine before it (R77). -/
def Instr.wellFormed : Instr → Bool
  | .idle => true
  | .rx _ => true
  | .cmdf _ _ => true
  | .cmda _ _ => true
  | .query _ => true
  | .reset => true
  | .reservedOpc5 _ => true
  | .reservedOpc6 _ => true
  | .sof2 => true
  | .sof3 => true
  | .statusL _ _ len body _ => body.length == len.toNat
  | .statusE _ _ _ len body _ => body.length == len.toNat
  | .circuit dest remote on chk => chk == sum8 (circuitFront dest remote on)

end Sys2Proof
end

