-- ==== Sys2Proof/Certificates/Slice0/Obligations.lean ====
section
/-! DEFINITION. The statements for the provers, in the order of the rules. Every docstring names the rule it comes from;
where a rule rests on one of the spec's own decisions (92_eei_decisions.md), it names the decision. Every statement
holds for every configuration and for every value of the model's own fields. -/

namespace Sys2Proof.Claims

open Sys2Proof.Machine

/-! ### Vocabulary of the statements, written apart from the meanings -/

/-- The five header bytes as a list. -/
def headerList (h : Header) : List Byte := [h.typ, h.dst, h.src, h.cmd, h.len]

/-- The start marker of 40_rx_sync.md R101: `b` completes `FF A5` or `FF 00 A5`. -/
def CompletesMarker (p2 p1 b : Byte) : Prop := b = 0xA5 ∧ (p1 = 0xFF ∨ (p1 = 0x00 ∧ p2 = 0xFF))

/-- The status triple of 40_rx_sync.md R105, under a configuration. -/
def IsStatusTriple (c : Config) (typ dst src : Byte) : Prop :=
  typ = statusType c ∧ dst = broadcastAddr c ∧ src = mainAddr c

/-- The command byte is the expected one, or the check is off (41_status_interp.md R132). -/
def IsStatusCommand (c : Config) (cmd : Byte) : Prop := ∀ k, statusCmd c = some k → cmd = k

/-- No send is turned away by the mid-frame guard (42_cmd_framer.md R157). -/
def MaySend (s : State) : Prop := s.cfg.txGuard = false ∨ s.phase = .scanning

/-- What a 27-byte body reports, bit 0 least significant, in the order of 41_status_interp.md R136. -/
def bodyReports (b : List Byte) : List (FeatureId × Bool) :=
  let e1 := b.getD 2 0
  let e2 := b.getD 3 0
  [(.pool, e1.getLsbD 0), (.spa, e1.getLsbD 1), (.cleaner, e1.getLsbD 2), (.airBlower, e1.getLsbD 3),
    (.spaLight, e1.getLsbD 4), (.poolLight, e1.getLsbD 5), (.waterFeature, e2.getLsbD 0), (.spillway, e2.getLsbD 1)]

/-- The outputs of an accepted status frame after its `FrameReady` (41_status_interp.md R138): a push for each reported
value that differs from the registry, then air, then water. -/
def statusOutputs (s : State) (b : List Byte) : List Output :=
  ((bodyReports b).filter (fun e => s.reg[featureNum e.1] != e.2)).map (fun e => .featurePush e.1 e.2) ++
    [.telemetryPush .air (b.getD s.cfg.offAirTemp 0), .telemetryPush .water (b.getD s.cfg.offWaterTemp 0)]

/-- The registry after a body `b` is accepted: the eight reported entries from `b`, the others as before. -/
def RegistryAfterStatus (before after : Vector Bool 16) (b : List Byte) : Prop :=
  ∀ f : FeatureId, after[featureNum f] = ((bodyReports b).lookup f).getD before[featureNum f]

/-- The ten bytes of the command frame (30_encoding.md R77; the sum by 42_cmd_framer.md R153). -/
def circuitBytes (c : Config) (dest : Byte) (on : Bool) : List Byte :=
  [0xFF, 0x00, 0xA5, 0x10, dest, c.remoteAddr, 0x86, 0x02, if on then 0x01 else 0x00,
    0x3C + dest + c.remoteAddr + if on then 0x01 else 0x00]

/-- The twelve outputs that send a frame (42_cmd_framer.md R152). -/
def sendOutputs (bytes : List Byte) : List Output := [.de true] ++ bytes.map .tx ++ [.de false]

/-- The instructions that feed received bytes: `RX` and the inbound wire frames. -/
def isReception : Instr → Bool
  | .idle => false
  | .rx _ => true
  | .cmdf _ _ => false
  | .cmda _ _ => false
  | .query _ => false
  | .reset => false
  | .reservedOpc5 _ => false
  | .reservedOpc6 _ => false
  | .sof2 => true
  | .sof3 => true
  | .statusL _ _ _ _ _ => true
  | .statusE _ _ _ _ _ _ => true
  | .circuit _ _ _ _ => false

/-- An output is an `Ev`. -/
def isEv : Output → Bool
  | .ev _ => true
  | _ => false

/-- An output is a `Diag`. -/
def isDiag : Output → Bool
  | .diag _ => true
  | _ => false

/-- An output is `Ev(FrameReady(..))` or `Ev(FrameDiscarded)`. -/
def isFrameEvent : Output → Bool
  | .ev (.frameReady _ _) => true
  | .ev .frameDiscarded => true
  | _ => false

/-- The operation word `0x20bb` (40_rx_sync.md R100). -/
def rxWord (b : Byte) : OpWord := 0x2000#16 ||| b.setWidth 16

/-- `n` steps, with the outputs of all of them joined in order (20_memory.md R58); none if one stops. -/
def runOutputs : Nat → State → Option (State × List Output)
  | 0, s => some (s, [])
  | n + 1, s =>
    match step s with
    | .next t => (runOutputs n t).map (fun r => (r.1, t.out ++ r.2))
    | _ => none

/-- Two states that differ at most in body cells no rule will read: outside ReadingBody all of them, in ReadingBody
those from `cnt` on (10_state.md R25). -/
def SameButStaleBody (s t : State) : Prop :=
  ∃ m : Memory, m.wf = true ∧ t = { s with body := m } ∧
    (s.phase = .readingBody → ∀ a, a < s.cnt.toNat → m.read a = s.body.read a)

end Sys2Proof.Claims

open Sys2Proof Sys2Proof.Machine Sys2Proof.Claims

/-! ### The port and the step -/

/-- When what is presented decodes to an instruction, the step is `exec` of it, and the rest of what is presented
waits (00_scope.md R5; the port queue is the model's, entry 2). -/
def Obligations.StepRunsTheDecodedInstruction : Prop :=
  ∀ (s : State) (p : Presented) (rest : List Presented) (i : Instr),
    s.port = p :: rest → decode p = .ok i → step s = exec i { s with port := rest }

/-- With nothing presented a step changes nothing and outputs nothing (70_reset_and_hazards.md R230; entry 2). -/
def Obligations.StepWithNothingPresentedHoldsState : Prop :=
  ∀ s : State, s.port = [] → step s = .next { s with out := [] }

/-- Every word that selects none of the six defined rows is refused with `ILLEGAL_OP` and has no other effect
(30_encoding.md R73, 43_host_ops.md R172; the spec's decisions D20, D21). -/
def Obligations.EveryUndefinedWordIsRefused : Prop :=
  ∀ (s : State) (w : OpWord) (rest : List Presented), s.port = .opw w :: rest →
    w ≠ 0x0000 → w &&& 0xFF00 ≠ 0x2000 → w &&& 0xE0FF ≠ 0x4000 → w &&& 0xEF00 ≠ 0x6000 →
    w &&& 0xF0FF ≠ 0x8000 → w ≠ 0xE000 →
    step s = .next { s with port := rest, diag := .illegalOp, out := [.diag .illegalOp] }

/-! ### Encodings -/

/-- Words written out from 30_encoding.md R70, R73 and R82, and frames from R76, R77, R78, decode as the spec says
(word layout: the spec's decision D20; wire frames: entry 5). -/
def Obligations.SampleEncodingsDecode : Prop :=
  decode (.opw 0x0000) = .ok .idle ∧ decode (.opw 0x20A5) = .ok (.rx 0xA5) ∧
  decode (.opw 0x5600) = .ok (.cmdf .pool true) ∧ decode (.opw 0x4900) = .ok (.cmdf .aux false) ∧
  decode (.opw 0x7060) = .ok (.cmda 0x60 true) ∧ decode (.opw 0x8100) = .ok (.query .spa) ∧
  decode (.opw 0xE000) = .ok .reset ∧ decode (.opw 0xA000) = .ok (.reservedOpc5 0) ∧
  decode (.opw 0xC001) = .ok (.reservedOpc6 1) ∧ decode (.opw 0x2100) = .rejected .reservedWord ∧
  decode (.opw 0x0001) = .rejected .reservedWord ∧
  decode (.wireIn [0xFF, 0xA5]) = .ok .sof2 ∧ decode (.wireIn [0xFF, 0x00, 0xA5]) = .ok .sof3 ∧
  decode (.wireIn [0xFF, 0x00, 0xA5, 0x02, 0x0F, 0x10, 0x02, 0x02, 0x48, 0x1E, 0x77]) =
    .ok (.statusL .three 0x02 0x02 [0x48, 0x1E] 0x77) ∧
  decode (.wireIn [0xFF, 0xA5, 0x14, 0x0F, 0x33, 0x05, 0x01, 0x48, 0x77]) =
    .ok (.statusE .two 0x33 0x05 0x01 [0x48] 0x77) ∧
  decode (.wireOut [0xFF, 0x00, 0xA5, 0x10, 0x10, 0x20, 0x86, 0x02, 0x01, 0x6D]) =
    .ok (.circuit 0x10 0x20 true 0x6D)

/-- Decoding what a well-formed instruction encodes to gives it back, every operand at every value. -/
def Obligations.DecodeOfEncodeIsTheInstruction : Prop :=
  ∀ i : Instr, i.wellFormed = true → decode (encode i) = .ok i

/-- Whatever decodes to an instruction is that instruction's encoding, bit for bit: no two presentations share one
instruction, and no bit of a word or frame is ignored. -/
def Obligations.EncodeOfDecodeIsThePresentation : Prop :=
  ∀ (p : Presented) (i : Instr), decode p = .ok i → encode i = p

/-! ### Housekeeping operations -/

/-- `IDLE` changes nothing and outputs nothing (43_host_ops.md R170; the spec's decision D2). -/
def Obligations.IdleHasNoEffect : Prop :=
  ∀ s : State, exec .idle s = .next { s with out := [] }

/-- The word `1000 ffff 00000000` is `QUERY f`, for all sixteen `f`; it answers `reg[f]` and changes nothing
(43_host_ops.md R171). -/
def Obligations.QueryAnswersTheEntry : Prop :=
  ∀ (f : FeatureId) (s : State),
    decode (.opw (0x8000#16 ||| BitVec.ofNat 16 (featureNum f).val <<< 8)) = .ok (.query f) ∧
    exec (.query f) s = .next { s with out := [.queryResult s.reg[featureNum f]] }

/-- `RESET` gives the reset record from every state, leaves the body buffer and the configuration, and outputs nothing
(43_host_ops.md R173, 70_reset_and_hazards.md R210, R212; the spec's decisions D2, D18, D19, D31). -/
def Obligations.ResetGivesTheResetRecord : Prop :=
  ∀ s : State, ∃ t, exec .reset s = .next t ∧
    t.phase = .scanning ∧ t.cnt = 0 ∧ t.prev = 0 ∧ t.prev2 = 0 ∧ headerList t.hdr = [0, 0, 0, 0, 0] ∧
    (∀ f : FeatureId, t.reg[featureNum f] = false) ∧ (∀ k : Fin 27, t.lastStatus[k] = 0) ∧
    t.statusValid = false ∧ t.diag = .none ∧ t.out = [] ∧
    t.body = s.body ∧ t.cfg = s.cfg ∧ t.port = s.port

/-- `RESET` and power-up leave the same record, but for what power-up has in the body buffer and at the port
(70_reset_and_hazards.md R210, R211). -/
def Obligations.ResetAndPowerUpAgree : Prop :=
  ∀ s : State, exec .reset s = .next { State.resetWith s.cfg with body := s.body, port := s.port }

/-- The two reserved rows are refused with `ILLEGAL_OP`, whatever their other bits (43_host_ops.md R172; the spec's
decision D21). -/
def Obligations.ReservedRowsAreRefused : Prop :=
  ∀ (x : BitVec 13) (s : State),
    exec (.reservedOpc5 x) s = .next { s with diag := .illegalOp, out := [.diag .illegalOp] } ∧
    exec (.reservedOpc6 x) s = .next { s with diag := .illegalOp, out := [.diag .illegalOp] }

/-- The operations other than `RX` and `RESET` answer a next state from every state, and it differs from the state
before in no element but the registry, `diag` and the outputs; only `CMDF f` touches the registry, and only entry `f`
(42_cmd_framer.md R150, R154, R156, R158, 43_host_ops.md R170 to R172; the spec's decisions D2, D21, D23, D25, entry 13;
`CIRCUIT` as an instruction is entry 6). -/
def Obligations.OtherOperationsLeaveTheDecoder : Prop :=
  ∀ (i : Instr) (s : State), isReception i = false → i ≠ .reset →
    ∃ r d o, exec i s = .next { s with reg := r, diag := d, out := o } ∧
      ∀ g : FeatureId, (∀ on, i ≠ .cmdf g on) → r[featureNum g] = s.reg[featureNum g]

/-! ### RX, Scanning -/

/-- A byte that does not complete a start marker while Scanning changes only the lookback, emits `Ev(NeedMoreInput)`
and no `Diag`, and leaves `diag` alone (60_exceptions.md R182, 40_rx_sync.md R101, R102; the marker patterns and the
two-byte lookback are the spec's decisions D3, D4, entry 13). -/
def Obligations.ResyncMissChangesOnlyTheLookback : Prop :=
  ∀ (b : Byte) (s : State), s.phase = .scanning → ¬ CompletesMarker s.prev2 s.prev b →
    exec (.rx b) s = .next { s with prev2 := s.prev, prev := b, out := [.ev .needMoreInput] }

/-- The byte that completes `FF A5` or `FF 00 A5` opens a header with no byte collected and a clear lookback
(40_rx_sync.md R101, R102; the spec's decisions D3, D4, D5, entry 13). -/
def Obligations.MarkerOpensAHeader : Prop :=
  ∀ (b : Byte) (s : State), s.phase = .scanning → CompletesMarker s.prev2 s.prev b →
    exec (.rx b) s = .next
      { s with phase := .readingHeader, cnt := 0, prev := 0, prev2 := 0, out := [.ev .needMoreInput] }

/-- The two marker rows open a header from every Scanning state, whatever the lookback (30_encoding.md R78; the
batch is the model's, entry 5). -/
def Obligations.BothMarkersOpenAHeader : Prop :=
  ∀ s : State, s.phase = .scanning →
    exec .sof2 s = .next { s with
      phase := .readingHeader, cnt := 0, prev := 0, prev2 := 0, out := [.ev .needMoreInput, .ev .needMoreInput] } ∧
    exec .sof3 s = .next { s with
      phase := .readingHeader, cnt := 0, prev := 0, prev2 := 0
      out := [.ev .needMoreInput, .ev .needMoreInput, .ev .needMoreInput] }

/-! ### RX, ReadingHeader -/

/-- One of the first four header bytes is stored at `hdr[cnt]` and counted, and nothing else changes (40_rx_sync.md
R104; the spec's decision D6). -/
def Obligations.EarlyHeaderByteIsStored : Prop :=
  ∀ (b : Byte) (s : State), s.phase = .readingHeader → s.cnt.toNat < 4 →
    ∃ h, headerList h = (headerList s.hdr).set s.cnt.toNat b ∧
      exec (.rx b) s = .next { s with hdr := h, cnt := s.cnt + 1, out := [.ev .needMoreInput] }

/-- A fifth header byte after a wrong triple discards the header, whatever its length byte: the triple is checked first
(40_rx_sync.md R105, 60_exceptions.md R185, R187; the spec's decisions D5, D6). -/
def Obligations.WrongTripleIsDiscarded : Prop :=
  ∀ (b : Byte) (s : State), s.phase = .readingHeader → s.cnt = 4 →
    ¬ IsStatusTriple s.cfg s.hdr.typ s.hdr.dst s.hdr.src →
    exec (.rx b) s = .next { s with
      phase := .scanning, cnt := 0, prev := 0, prev2 := 0, hdr := { s.hdr with len := b }, diag := .headerRejected
      out := [.ev .frameDiscarded, .diag .headerRejected] }

/-- A declared length above 128 discards the header and stores no body byte (40_rx_sync.md R106; the spec's decisions
D6, D37). -/
def Obligations.OversizedBodyIsDiscarded : Prop :=
  ∀ (b : Byte) (s : State), s.phase = .readingHeader → s.cnt = 4 →
    IsStatusTriple s.cfg s.hdr.typ s.hdr.dst s.hdr.src → 128 < b.toNat →
    exec (.rx b) s = .next { s with
      phase := .scanning, cnt := 0, prev := 0, prev2 := 0, hdr := { s.hdr with len := b }, diag := .oversizedBody
      out := [.ev .frameDiscarded, .diag .oversizedBody] }

/-- A status header with a length of 1 to 128 starts the body and yields (40_rx_sync.md R107; the spec's decision
D9). -/
def Obligations.AcceptedHeaderStartsTheBody : Prop :=
  ∀ (b : Byte) (s : State), s.phase = .readingHeader → s.cnt = 4 →
    IsStatusTriple s.cfg s.hdr.typ s.hdr.dst s.hdr.src → 1 ≤ b.toNat → b.toNat ≤ 128 →
    exec (.rx b) s = .next { s with
      phase := .readingBody, cnt := 0, hdr := { s.hdr with len := b }, out := [.ev .needMoreInput, .yield] }

/-- A status header with length 0 hands out an empty frame at once, which the interpreter refuses for its length
(40_rx_sync.md R110, 41_status_interp.md R131; the spec's decision D8). -/
def Obligations.EmptyBodyIsHandedOutAtOnce : Prop :=
  ∀ (s : State), s.phase = .readingHeader → s.cnt = 4 →
    IsStatusTriple s.cfg s.hdr.typ s.hdr.dst s.hdr.src →
    exec (.rx 0) s = .next { s with
      phase := .scanning, cnt := 0, prev := 0, prev2 := 0, hdr := { s.hdr with len := 0 }
      diag := .malformedStatusLength
      out := [.ev (.frameReady { s.hdr with len := 0 } []), .diag .malformedStatusLength] }

/-- Only a count outside the header or the buffer stops `RX`, and no state of the invariant has one (20_memory.md R56;
the two faults are the model's choice, entry 7). -/
def Obligations.RxStopsOnlyOutsideItsBuffers : Prop :=
  ∀ (b : Byte) (s : State),
    (s.phase = .readingHeader → 4 < s.cnt.toNat → exec (.rx b) s = .fault .hdrIndexOutOfRange) ∧
    (s.phase = .readingBody → 127 < s.cnt.toNat → exec (.rx b) s = .fault .bodyIndexOutOfRange) ∧
    (s.phase = .scanning → ∃ t, exec (.rx b) s = .next t) ∧
    (s.phase = .readingHeader → s.cnt.toNat ≤ 4 → ∃ t, exec (.rx b) s = .next t) ∧
    (s.phase = .readingBody → s.cnt.toNat ≤ 127 → ∃ t, exec (.rx b) s = .next t)

/-! ### RX, ReadingBody, and the interpreter -/

/-- A body byte before the last goes to `body[cnt]` and nowhere else, and is counted (40_rx_sync.md R108). -/
def Obligations.EarlyBodyByteIsStored : Prop :=
  ∀ (b : Byte) (s : State), Inv s → s.phase = .readingBody → s.cnt.toNat + 1 < s.hdr.len.toNat →
    ∃ m : Memory, exec (.rx b) s = .next { s with body := m, cnt := s.cnt + 1, out := [.ev .needMoreInput] } ∧
      m.wf = true ∧ ∀ a, m.read a = if a = s.cnt.toNat then b else s.body.read a

/-- The last body byte of a frame whose length is not 27 hands out the frame, returns to Scanning and is refused by the
interpreter, with no registry, telemetry or status change (40_rx_sync.md R109, 41_status_interp.md R131; the spec's
decisions D5, D10, D11). -/
def Obligations.WrongStatusLengthIsRefused : Prop :=
  ∀ (b : Byte) (s : State), Inv s → s.phase = .readingBody → s.cnt.toNat + 1 = s.hdr.len.toNat →
    s.hdr.len.toNat ≠ 27 →
    ∃ m : Memory, (∀ a, m.read a = if a = s.cnt.toNat then b else s.body.read a) ∧
      exec (.rx b) s = .next { s with
        phase := .scanning, cnt := 0, prev := 0, prev2 := 0, body := m, diag := .malformedStatusLength
        out := [.ev (.frameReady s.hdr ((List.range s.cnt.toNat).map s.body.read ++ [b])),
          .diag .malformedStatusLength] }

/-- The last body byte of a 27-byte frame with an unexpected command byte hands out the frame and is refused by the
guard, with no registry, telemetry or status change (41_status_interp.md R132; the spec's decisions D10, D12). -/
def Obligations.UnexpectedCommandIsRefused : Prop :=
  ∀ (b : Byte) (s : State), Inv s → s.phase = .readingBody → s.cnt.toNat = 26 → s.hdr.len.toNat = 27 →
    ¬ IsStatusCommand s.cfg s.hdr.cmd →
    ∃ m : Memory, (∀ a, m.read a = if a = 26 then b else s.body.read a) ∧
      exec (.rx b) s = .next { s with
        phase := .scanning, cnt := 0, prev := 0, prev2 := 0, body := m, diag := .unknownInnerCommand
        out := [.ev (.frameReady s.hdr ((List.range 26).map s.body.read ++ [b])), .diag .unknownInnerCommand] }

/-- The last body byte of an accepted status frame: the payload is retained byte for byte, the eight reported entries
are refreshed and the others kept, changes and both temperatures are pushed, `diag` is left (41_status_interp.md R135 to
R138; equip bytes at 2 and 3, bit order and pushes by the spec's decisions D16, D14, D17, D33, entries 12, 13). -/
def Obligations.AcceptedStatusFrame : Prop :=
  ∀ (b : Byte) (s : State) (bytes : List Byte), Inv s → s.phase = .readingBody → s.cnt.toNat = 26 →
    s.hdr.len.toNat = 27 → IsStatusCommand s.cfg s.hdr.cmd →
    bytes = (List.range 26).map s.body.read ++ [b] →
    ∃ (m : Memory) (r : Vector Bool 16) (p : Vector Byte 27),
      exec (.rx b) s = .next { s with
        phase := .scanning, cnt := 0, prev := 0, prev2 := 0, body := m, reg := r, lastStatus := p, statusValid := true
        out := .ev (.frameReady s.hdr bytes) :: statusOutputs s bytes } ∧
      p.toList = bytes ∧ RegistryAfterStatus s.reg r bytes ∧
      ∀ a, m.read a = if a = 26 then b else s.body.read a

/-- Accepting a status frame retains all 27 body bytes unchanged and marks them valid (41_status_interp.md R135). -/
def Obligations.AcceptedPayloadIsRetained : Prop :=
  ∀ (h : Header) (bytes : List Byte) (s : State), bytes.length = 27 → IsStatusTriple s.cfg h.typ h.dst h.src →
    IsStatusCommand s.cfg h.cmd →
    (interpret h bytes s).lastStatus.toList = bytes ∧ (interpret h bytes s).statusValid = true

/-- Every `RX` that answers emits exactly one `Ev`, first, and no `DE`, `TX` or `QueryResult` (40_rx_sync.md R100). -/
def Obligations.RxEmitsExactlyOneEvFirst : Prop :=
  ∀ (b : Byte) (s t : State), exec (.rx b) s = .next t →
    ∃ e rest, t.out = .ev e :: rest ∧
      ∀ o ∈ rest, isEv o = false ∧ (∀ v, o ≠ .de v) ∧ (∀ v, o ≠ .tx v) ∧ ∀ v, o ≠ .queryResult v

/-- No operation but `RX` (and the frames fed by it) emits an `Ev` (00_scope.md R6). -/
def Obligations.OnlyReceptionEmitsEv : Prop :=
  ∀ (i : Instr) (s t : State), isReception i = false → exec i s = .next t → ∀ o ∈ t.out, isEv o = false

/-- `RX` writes no body cell but `body[cnt]`, and that only in ReadingBody (20_memory.md R50, R56). -/
def Obligations.RxStoresOnlyAtTheCount : Prop :=
  ∀ (b : Byte) (s t : State), Inv s → exec (.rx b) s = .next t →
    (s.phase ≠ .readingBody → t.body = s.body) ∧
    (s.phase = .readingBody → ∀ a, t.body.read a = if a = s.cnt.toNat then b else s.body.read a)

/-- After a rejected header both marker forms open the next header (40_rx_sync.md R105, R115 item 3; the spec's decisions
D3, D5, D6, entry 13; the markers as one-step instructions are the model's, entry 5). -/
def Obligations.MarkerIsFoundAfterARejectedHeader : Prop :=
  ∀ (b : Byte) (s : State), s.phase = .readingHeader → s.cnt = 4 →
    ¬ IsStatusTriple s.cfg s.hdr.typ s.hdr.dst s.hdr.src →
    ∃ t u v, exec (.rx b) s = .next t ∧ exec .sof2 t = .next u ∧ exec .sof3 t = .next v ∧
      u.phase = .readingHeader ∧ u.cnt = 0 ∧ v.phase = .readingHeader ∧ v.cnt = 0 ∧
      u.reg = s.reg ∧ v.reg = s.reg

/-! ### The command framer -/

/-- The frame the framer builds is the ten bytes of 30_encoding.md R77, the last the sum of the nine before it modulo
256, for every destination, state and configuration. -/
def Obligations.CommandFrameLayout : Prop :=
  ∀ (c : Config) (dest : Byte) (on : Bool),
    ∃ k : Byte, cmdFrame c dest on =
      [0xFF, 0x00, 0xA5, 0x10, dest, c.remoteAddr, 0x86, 0x02, if on then 0x01 else 0x00, k] ∧
    k.toNat = (((cmdFrame c dest on).take 9).map BitVec.toNat).sum % 256

/-- The transmit sequence: `DE(1)`, the bytes in order, `DE(0)`, appended to the outputs, and nothing else
(42_cmd_framer.md R152). -/
def Obligations.TransmitSequence : Prop :=
  ∀ (bytes : List Byte) (s : State),
    transmit bytes s = { s with out := s.out ++ ([.de true] ++ bytes.map .tx ++ [.de false]) }

/-- The checksum is `0x3C + dest + REMOTE_ADDR + s` modulo 256, and the frames for on and off differ in byte 8 and in
the checksum only, which is one more for on (42_cmd_framer.md R153, whose formula the spec marks as derived). -/
def Obligations.ChecksumArithmetic : Prop :=
  ∀ (c : Config) (dest : Byte),
    (∀ on, cmdFrame c dest on = circuitBytes c dest on) ∧
    (cmdFrame c dest true).take 8 = (cmdFrame c dest false).take 8 ∧
    (cmdFrame c dest true)[9]? = ((cmdFrame c dest false)[9]?).map (· + 1)

/-- `CMDF` of a bound feature, when no guard fires, sends the frame, writes the entry and pushes it, and changes nothing
else (42_cmd_framer.md R154, R155; the spec's decisions D17, D26). -/
def Obligations.BoundFeatureCommandIsSent : Prop :=
  ∀ (f : FeatureId) (on : Bool) (dest : Byte) (s : State), MaySend s → s.cfg.featureAddr[featureNum f] = some dest →
    ∃ r : Vector Bool 16,
      exec (.cmdf f on) s = .next { s with
        reg := r, out := sendOutputs (circuitBytes s.cfg dest on) ++ [.featurePush f on] } ∧
      r[featureNum f] = on ∧ ∀ g : FeatureId, g ≠ f → r[featureNum g] = s.reg[featureNum g]

/-- `CMDF` of an unbound feature is refused, when no guard fires (42_cmd_framer.md R154; the spec's decision D22). -/
def Obligations.UnboundFeatureCommandIsRefused : Prop :=
  ∀ (f : FeatureId) (on : Bool) (s : State), MaySend s → s.cfg.featureAddr[featureNum f] = none →
    exec (.cmdf f on) s = .next { s with diag := .cmdNoBinding, out := [.diag .cmdNoBinding] }

/-- With the guard on, every send while a header or body is being read is refused, bound or not, before the binding is
looked up (42_cmd_framer.md R157, 60_exceptions.md R187; the spec's decision D24). -/
def Obligations.MidFrameSendIsRefused : Prop :=
  ∀ (s : State), s.cfg.txGuard = true → s.phase ≠ .scanning →
    ∀ (f : FeatureId) (a r k : Byte) (on : Bool),
      exec (.cmdf f on) s = .next { s with diag := .cmdMidframe, out := [.diag .cmdMidframe] } ∧
      exec (.cmda a on) s = .next { s with diag := .cmdMidframe, out := [.diag .cmdMidframe] } ∧
      exec (.circuit a r on k) s = .next { s with diag := .cmdMidframe, out := [.diag .cmdMidframe] }

/-- `CMDA` sends the frame to the raw address and changes nothing, when no guard fires (42_cmd_framer.md R156; the
spec's decision D23). -/
def Obligations.RawAddressCommandIsSent : Prop :=
  ∀ (a : Byte) (on : Bool) (s : State), MaySend s →
    exec (.cmda a on) s = .next { s with out := sendOutputs (circuitBytes s.cfg a on) }

/-- `CIRCUIT`, for a well-formed frame whose source byte is `REMOTE_ADDR`, puts exactly its own ten bytes on the wire,
when no guard fires, and changes nothing else (30_encoding.md R77; that the row runs as a send is the model's choice,
entry 6). -/
def Obligations.CircuitFrameIsSentAsWritten : Prop :=
  ∀ (dest remote : Byte) (on : Bool) (k : Byte) (bytes : List Byte) (s : State), MaySend s →
    (Instr.circuit dest remote on k).wellFormed = true → remote = s.cfg.remoteAddr →
    encode (.circuit dest remote on k) = .wireOut bytes →
    exec (.circuit dest remote on k) s = .next { s with out := sendOutputs bytes }

/-- The block's own command frame, received back while Scanning, is rejected as a header and changes neither the
registry nor the retained status (42_cmd_framer.md R155, R158; the spec's decision D25; the batch is the model's,
entry 5). -/
def Obligations.EchoedCommandFrameIsRejected : Prop :=
  ∀ (s : State) (c : Config) (dest : Byte) (on : Bool) (rest : List Presented), s.phase = .scanning →
    s.port = .wireIn (circuitBytes c dest on) :: rest →
    ∃ t, step s = .next t ∧ t.reg = s.reg ∧ t.lastStatus = s.lastStatus ∧ t.statusValid = s.statusValid ∧
      t.diag = .headerRejected ∧ t.phase = .scanning ∧
      headerList t.hdr = [0x10, dest, c.remoteAddr, 0x86, 0x02] ∧
      t.out.filter isFrameEvent = [.ev .frameDiscarded]

/-! ### Discard and refusal -/

/-- The refusal procedure writes `diag` and emits `Diag` of the same code, and changes nothing else
(60_exceptions.md R186). -/
def Obligations.RefusalChangesOnlyDiag : Prop :=
  ∀ (c : Cause) (s : State), raiseRefuse c s = { s with diag := c, out := s.out ++ [.diag c] }

/-- The discard procedure changes `phase`, `cnt`, `prev`, `prev2` and `diag`, nothing else, and emits
`Ev(FrameDiscarded)` then `Diag` (60_exceptions.md R185; the cleared lookback is the spec's decision D5). -/
def Obligations.DiscardReturnsToScanning : Prop :=
  ∀ (c : Cause) (s : State), raiseDiscard c s = { s with
    phase := .scanning, cnt := 0, prev := 0, prev2 := 0, diag := c, out := s.out ++ [.ev .frameDiscarded, .diag c] }

/-- One operation raises at most one cause: either it emits no `Diag` and leaves `diag`, or it emits exactly one, of the
code that `diag` then holds (60_exceptions.md R181, R187; 10_state.md R28; `RESET` and the bursts of several `RX`
apart). -/
def Obligations.DiagRecordsTheOneCause : Prop :=
  ∀ (i : Instr) (s t : State), (∃ b, i = .rx b) ∨ (isReception i = false ∧ i ≠ .reset) → exec i s = .next t →
    (t.diag = s.diag ∧ t.out.filter isDiag = []) ∨ t.out.filter isDiag = [.diag t.diag]

/-! ### Whole-machine rules -/

/-- No step writes the configuration (00_scope.md, section 4; U11). -/
def Obligations.NoStepWritesTheConfiguration : Prop :=
  ∀ s t : State, step s = .next t → t.cfg = s.cfg ∧ t.port = s.port.tail

/-- `reg` of `Unknown`, `Aux` and the reserved ids changes only by `CMDF` and `RESET` (10_state.md R26, R34 item 6,
which the spec marks as derived). -/
def Obligations.UnreportedEntriesChangeOnlyByCommand : Prop :=
  ∀ (i : Instr) (s t : State) (f : FeatureId),
    f ∈ [.unknown, .aux, .reserved10, .reserved11, .reserved12, .reserved13, .reserved14, .reserved15] →
    i ≠ .reset → (∀ on, i ≠ .cmdf f on) → exec i s = .next t → t.reg[featureNum f] = s.reg[featureNum f]

/-- `RX` writes the retained status only with its valid bit, and then it is the body of the frame handed out
(10_state.md R27; 41_status_interp.md R135). -/
def Obligations.RetainedStatusChangesOnlyByAcceptance : Prop :=
  ∀ (b : Byte) (s t : State), exec (.rx b) s = .next t →
    (t.lastStatus = s.lastStatus ∧ t.statusValid = s.statusValid) ∨
    (t.statusValid = true ∧ ∃ h, t.out.head? = some (.ev (.frameReady h t.lastStatus.toList)))

/-- The invariant of 10_state.md R34 holds at power-up under every configuration (R40; entry 4 for the empty body). -/
def Obligations.InvariantHoldsAtReset : Prop :=
  ∀ c : Config, Inv (State.resetWith c)

/-- Every step from a state of the invariant leaves a state of the invariant, whatever is presented (10_state.md R34). -/
def Obligations.EveryStepKeepsTheInvariant : Prop :=
  ∀ s t : State, Inv s → step s = .next t → Inv t

/-- From a state of the invariant no step faults, whatever is presented, and a step after which the phase is ReadingBody
leaves the count below the declared length and that at most 128: no rule indexes outside its buffers (20_memory.md
R56). -/
def Obligations.NoStepIndexesOutsideItsBuffers : Prop :=
  ∀ s : State, Inv s → (∀ f, step s ≠ .fault f) ∧
    ∀ t, step s = .next t → t.phase = .readingBody → t.cnt.toNat < t.hdr.len.toNat ∧ t.hdr.len.toNat ≤ 128

/-- From a state of the invariant every instruction answers a next state of the invariant (00_scope.md R5: the machine
is a total function). -/
def Obligations.EveryInstructionCompletes : Prop :=
  ∀ (i : Instr) (s : State), Inv s → ∃ t, exec i s = .next t ∧ Inv t ∧ t.cfg = s.cfg ∧ t.port = s.port

/-- Received bytes act the same however the host groups them: one burst leaves the same state, and the same outputs in
the same order, as the operation words `0x20bb` presented one by one (40_rx_sync.md R103; the burst is the model's,
entry 5). -/
def Obligations.BurstEqualsBytesOneByOne : Prop :=
  ∀ (bytes : List Byte) (rest : List Presented) (s : State), Inv s →
    ∃ t u, step { s with port := .wireIn bytes :: rest } = .next t ∧
      runOutputs bytes.length { s with port := bytes.map (fun b => .opw (rxWord b)) ++ rest } = some (u, t.out) ∧
      { u with out := [] } = { t with out := [] }

/-- A body cut short keeps the decoder in ReadingBody: fewer bytes than are missing are stored and counted, whatever
they are, markers included (40_rx_sync.md R113, 70_reset_and_hazards.md R222; the spec's decisions D7, D27; the batch is
the model's, entry 5, and entry 9 where the bytes are no row). -/
def Obligations.TruncatedBodyKeepsWaiting : Prop :=
  ∀ (bytes : List Byte) (rest : List Presented) (s : State), Inv s → s.phase = .readingBody →
    s.cnt.toNat + bytes.length < s.hdr.len.toNat → s.port = .wireIn bytes :: rest →
    ∃ t, step s = .next t ∧ t.phase = .readingBody ∧ t.cnt.toNat = s.cnt.toNat + bytes.length ∧ t.hdr = s.hdr ∧
      t.reg = s.reg ∧ t.out = List.replicate bytes.length (.ev .needMoreInput) ∧
      (List.range bytes.length).map (fun k => t.body.read (s.cnt.toNat + k)) = bytes

/-- What the body buffer holds beyond the current frame's bytes is unobservable: two states that differ there only step
to outcomes that differ there only, with the same outputs (10_state.md R25, which the spec marks as derived; it makes
the model's choice of entry 4 harmless). -/
def Obligations.StaleBodyIsUnobservable : Prop :=
  ∀ s s' t : State, Inv s → SameButStaleBody s s' → step s = .next t →
    ∃ t', step s' = .next t' ∧ SameButStaleBody t t'

/-- A status frame of dialect L with 27 body bytes and the expected command, received while Scanning, is decoded whole:
the registry shows its bits, the status is retained, the outputs are exactly those of the rules, and the checksum byte
is scanned like any other, whatever it is (30_encoding.md R76, R81, 41_status_interp.md R138; the equip bytes at 2 and 3
are the spec's decision D16, their bit order D14, entries 12, 13; the batch is the model's, entry 5). -/
def Obligations.StatusFrameOfDialectLIsDecoded : Prop :=
  ∀ (m : Marker) (cmd : Byte) (body : List Byte) (chk : Byte) (s : State), Inv s → s.phase = .scanning →
    s.cfg.dialect = .L → (s.cfg.lStatusCmdOn = true → cmd = 0x02) → body.length = 27 →
    ∃ t, exec (.statusL m cmd 27 body chk) s = .next t ∧
      t.phase = .scanning ∧ t.cnt = 0 ∧ t.prev2 = 0 ∧ t.prev = chk ∧
      headerList t.hdr = [0x02, 0x0F, 0x10, cmd, 27] ∧ t.lastStatus.toList = body ∧ t.statusValid = true ∧
      RegistryAfterStatus s.reg t.reg body ∧ t.diag = s.diag ∧
      (∀ a, t.body.read a = if a < 27 then body.getD a 0 else s.body.read a) ∧
      t.out = List.replicate ((markerBytes m).length + 5) (.ev .needMoreInput) ++ [.yield] ++
        List.replicate 26 (.ev .needMoreInput) ++ [.ev (.frameReady ⟨0x02, 0x0F, 0x10, cmd, 27⟩ body)] ++
        statusOutputs s body ++ [.ev .needMoreInput]

/-- The same of a status frame of dialect E whose source byte is the configured `E_MAIN_ADDR` (00_scope.md R8; dialect
E's broadcast address is `0x0F` unless the configuration says otherwise, the spec's decision D13, entry 14; with another
one the frame is discarded, `StatusFrameForAnotherTripleIsDiscarded`; the equip bytes are D16 and D14, entries 12, 13; the
batch is the model's, entry 5). -/
def Obligations.StatusFrameOfDialectEIsDecoded : Prop :=
  ∀ (m : Marker) (main cmd : Byte) (body : List Byte) (chk : Byte) (s : State), Inv s → s.phase = .scanning →
    s.cfg.dialect = .E → s.cfg.eBroadcastAddr = 0x0F → main = s.cfg.eMainAddr →
    (∀ k, s.cfg.eStatusCmd = some k → cmd = k) → body.length = 27 →
    ∃ t, exec (.statusE m main cmd 27 body chk) s = .next t ∧
      t.phase = .scanning ∧ t.cnt = 0 ∧ t.prev2 = 0 ∧ t.prev = chk ∧
      headerList t.hdr = [0x14, 0x0F, main, cmd, 27] ∧ t.lastStatus.toList = body ∧ t.statusValid = true ∧
      RegistryAfterStatus s.reg t.reg body ∧ t.diag = s.diag ∧
      (∀ a, t.body.read a = if a < 27 then body.getD a 0 else s.body.read a) ∧
      t.out = List.replicate ((markerBytes m).length + 5) (.ev .needMoreInput) ++ [.yield] ++
        List.replicate 26 (.ev .needMoreInput) ++ [.ev (.frameReady ⟨0x14, 0x0F, main, cmd, 27⟩ body)] ++
        statusOutputs s body ++ [.ev .needMoreInput]

/-- A whole frame with the status triple and a body of at most 128 bytes, but not 27, is handed out once and refused for
its length: no registry, telemetry or status change, and the checksum byte is scanned (30_encoding.md R75, 40_rx_sync.md
R109 to R111, 41_status_interp.md R131; the spec's decisions D8, D10, D11; the batch is the model's, entry 5). -/
def Obligations.StatusFrameOfAnotherLengthIsRefused : Prop :=
  ∀ (m : Marker) (h : Header) (body : List Byte) (chk : Byte) (rest : List Presented) (s : State), Inv s →
    s.phase = .scanning → IsStatusTriple s.cfg h.typ h.dst h.src → body.length = h.len.toNat → body.length ≤ 128 →
    body.length ≠ 27 → s.port = .wireIn (markerBytes m ++ headerList h ++ body ++ [chk]) :: rest →
    ∃ t, step s = .next t ∧ t.phase = .scanning ∧ t.cnt = 0 ∧ t.prev2 = 0 ∧ t.prev = chk ∧ t.hdr = h ∧
      t.reg = s.reg ∧ t.lastStatus = s.lastStatus ∧ t.statusValid = s.statusValid ∧
      t.diag = .malformedStatusLength ∧ t.out.filter isFrameEvent = [.ev (.frameReady h body)] ∧
      (∀ f v, .featurePush f v ∉ t.out) ∧ ∀ ch v, .telemetryPush ch v ∉ t.out

/-- A status frame of the other dialect's numbering is discarded whole and harms no state (70_reset_and_hazards.md
R226): with dialect E configured, no header of dialect L is accepted. -/
def Obligations.OtherDialectsHeaderIsRejected : Prop :=
  ∀ (b : Byte) (s : State), s.phase = .readingHeader → s.cnt = 4 →
    (s.cfg.dialect = .E ∧ s.hdr.typ = 0x02) ∨ (s.cfg.dialect = .L ∧ s.hdr.typ = 0x14) →
    ∃ t, exec (.rx b) s = .next t ∧ t.diag = .headerRejected ∧ t.phase = .scanning ∧ t.reg = s.reg ∧
      t.lastStatus = s.lastStatus ∧ t.statusValid = s.statusValid ∧ t.body = s.body

/-- One frame among noise: from Scanning with a clear lookback, noise without a marker, then a frame with the status
triple and at most 128 body bytes, then noise, emits exactly one frame event, `FrameReady` with that header and body
(40_rx_sync.md R115 item 1, which the spec marks as derived; the batch is the model's, entry 5). -/
def Obligations.OneFrameAmongNoise : Prop :=
  ∀ (n1 n2 body : List Byte) (h : Header) (rest : List Presented) (s : State), Inv s → s.phase = .scanning →
    s.prev = 0 → s.prev2 = 0 → holdsMarker n1 = false → holdsMarker n2 = false →
    IsStatusTriple s.cfg h.typ h.dst h.src → body.length = h.len.toNat → body.length ≤ 128 →
    s.port = .wireIn (n1 ++ ([0xFF, 0x00, 0xA5] ++ headerList h ++ body) ++ n2) :: rest →
    ∃ t, step s = .next t ∧ t.phase = .scanning ∧ t.out.filter isFrameEvent = [.ev (.frameReady h body)]

/-- A poll presents a non-empty first part of its queue, in order, and leaves what feeding that part leaves
(43_host_ops.md R174, a procedure of the host; entry 16). -/
def Obligations.PollFeedsAFirstPart : Prop :=
  ∀ (b : Byte) (q : List Byte) (s : State), Inv s →
    ∃ p r t outs, poll (b :: q) s = .next ⟨t, r, outs⟩ ∧ b :: q = p ++ r ∧ p ≠ [] ∧
      feed p { s with out := [] } = .next { t with out := outs }

/-- A wire row whose header carries another triple than the configured one (a status frame of the other dialect, of
another source, or, where dialect E is configured with another broadcast address than `0x0F`, every `STATUS.E`) is
discarded at its fifth header byte, and its body and checksum are scanned as noise: with no marker among them, nothing but
the header, `diag` and the lookback is left of it (40_rx_sync.md R105, R111, 60_exceptions.md R185; the spec's decisions
D3, D5, D6, D13, entries 13, 14; the batch is the model's, entry 5). -/
def Obligations.StatusFrameForAnotherTripleIsDiscarded : Prop :=
  ∀ (i : Instr) (m : Marker) (h : Header) (tail : List Byte) (s : State), s.phase = .scanning →
    encode i = .wireIn (markerBytes m ++ headerList h ++ tail) → ¬ IsStatusTriple s.cfg h.typ h.dst h.src →
    holdsMarker tail = false →
    ∃ p1 p2, exec i s = .next { s with
      phase := .scanning, cnt := 0, prev := p1, prev2 := p2, hdr := h, diag := .headerRejected
      out := List.replicate ((markerBytes m).length + 4) (.ev .needMoreInput) ++
        [.ev .frameDiscarded, .diag .headerRejected] ++ List.replicate tail.length (.ev .needMoreInput) }
end

