-- ==== Sys2Proof/Laws/State.lean ====
section
/-! SUPPORT. What each update of a state does to each field: one lemma per field per update. -/

namespace Sys2Proof.Machine

@[simp] theorem emit_phase (o : Output) (s : State) : (emit o s).phase = s.phase := rfl
@[simp] theorem emit_cnt (o : Output) (s : State) : (emit o s).cnt = s.cnt := rfl
@[simp] theorem emit_prev (o : Output) (s : State) : (emit o s).prev = s.prev := rfl
@[simp] theorem emit_prev2 (o : Output) (s : State) : (emit o s).prev2 = s.prev2 := rfl
@[simp] theorem emit_hdr (o : Output) (s : State) : (emit o s).hdr = s.hdr := rfl
@[simp] theorem emit_body (o : Output) (s : State) : (emit o s).body = s.body := rfl
@[simp] theorem emit_reg (o : Output) (s : State) : (emit o s).reg = s.reg := rfl
@[simp] theorem emit_lastStatus (o : Output) (s : State) : (emit o s).lastStatus = s.lastStatus := rfl
@[simp] theorem emit_statusValid (o : Output) (s : State) : (emit o s).statusValid = s.statusValid := rfl
@[simp] theorem emit_diag (o : Output) (s : State) : (emit o s).diag = s.diag := rfl
@[simp] theorem emit_cfg (o : Output) (s : State) : (emit o s).cfg = s.cfg := rfl
@[simp] theorem emit_port (o : Output) (s : State) : (emit o s).port = s.port := rfl
@[simp] theorem emit_out (o : Output) (s : State) : (emit o s).out = s.out ++ [o] := rfl

@[simp] theorem begin_phase (s : State) : (begin s).phase = s.phase := rfl
@[simp] theorem begin_cnt (s : State) : (begin s).cnt = s.cnt := rfl
@[simp] theorem begin_prev (s : State) : (begin s).prev = s.prev := rfl
@[simp] theorem begin_prev2 (s : State) : (begin s).prev2 = s.prev2 := rfl
@[simp] theorem begin_hdr (s : State) : (begin s).hdr = s.hdr := rfl
@[simp] theorem begin_body (s : State) : (begin s).body = s.body := rfl
@[simp] theorem begin_reg (s : State) : (begin s).reg = s.reg := rfl
@[simp] theorem begin_lastStatus (s : State) : (begin s).lastStatus = s.lastStatus := rfl
@[simp] theorem begin_statusValid (s : State) : (begin s).statusValid = s.statusValid := rfl
@[simp] theorem begin_diag (s : State) : (begin s).diag = s.diag := rfl
@[simp] theorem begin_cfg (s : State) : (begin s).cfg = s.cfg := rfl
@[simp] theorem begin_port (s : State) : (begin s).port = s.port := rfl
@[simp] theorem begin_out (s : State) : (begin s).out = [] := rfl

@[simp] theorem enterScanning_phase (s : State) : (enterScanning s).phase = .scanning := rfl
@[simp] theorem enterScanning_cnt (s : State) : (enterScanning s).cnt = 0 := rfl
@[simp] theorem enterScanning_prev (s : State) : (enterScanning s).prev = 0x00 := rfl
@[simp] theorem enterScanning_prev2 (s : State) : (enterScanning s).prev2 = 0x00 := rfl
@[simp] theorem enterScanning_hdr (s : State) : (enterScanning s).hdr = s.hdr := rfl
@[simp] theorem enterScanning_body (s : State) : (enterScanning s).body = s.body := rfl
@[simp] theorem enterScanning_reg (s : State) : (enterScanning s).reg = s.reg := rfl
@[simp] theorem enterScanning_lastStatus (s : State) : (enterScanning s).lastStatus = s.lastStatus := rfl
@[simp] theorem enterScanning_statusValid (s : State) : (enterScanning s).statusValid = s.statusValid := rfl
@[simp] theorem enterScanning_diag (s : State) : (enterScanning s).diag = s.diag := rfl
@[simp] theorem enterScanning_cfg (s : State) : (enterScanning s).cfg = s.cfg := rfl
@[simp] theorem enterScanning_port (s : State) : (enterScanning s).port = s.port := rfl
@[simp] theorem enterScanning_out (s : State) : (enterScanning s).out = s.out := rfl

@[simp] theorem raiseDiscard_phase (c : Cause) (s : State) : (raiseDiscard c s).phase = .scanning := rfl
@[simp] theorem raiseDiscard_cnt (c : Cause) (s : State) : (raiseDiscard c s).cnt = 0 := rfl
@[simp] theorem raiseDiscard_prev (c : Cause) (s : State) : (raiseDiscard c s).prev = 0x00 := rfl
@[simp] theorem raiseDiscard_prev2 (c : Cause) (s : State) : (raiseDiscard c s).prev2 = 0x00 := rfl
@[simp] theorem raiseDiscard_hdr (c : Cause) (s : State) : (raiseDiscard c s).hdr = s.hdr := rfl
@[simp] theorem raiseDiscard_body (c : Cause) (s : State) : (raiseDiscard c s).body = s.body := rfl
@[simp] theorem raiseDiscard_reg (c : Cause) (s : State) : (raiseDiscard c s).reg = s.reg := rfl
@[simp] theorem raiseDiscard_lastStatus (c : Cause) (s : State) : (raiseDiscard c s).lastStatus = s.lastStatus := rfl
@[simp] theorem raiseDiscard_statusValid (c : Cause) (s : State) : (raiseDiscard c s).statusValid = s.statusValid := rfl
@[simp] theorem raiseDiscard_diag (c : Cause) (s : State) : (raiseDiscard c s).diag = c := rfl
@[simp] theorem raiseDiscard_cfg (c : Cause) (s : State) : (raiseDiscard c s).cfg = s.cfg := rfl
@[simp] theorem raiseDiscard_port (c : Cause) (s : State) : (raiseDiscard c s).port = s.port := rfl
@[simp] theorem raiseDiscard_out (c : Cause) (s : State) : (raiseDiscard c s).out = s.out ++ [.ev .frameDiscarded] ++ [.diag c] := rfl

@[simp] theorem raiseRefuse_phase (c : Cause) (s : State) : (raiseRefuse c s).phase = s.phase := rfl
@[simp] theorem raiseRefuse_cnt (c : Cause) (s : State) : (raiseRefuse c s).cnt = s.cnt := rfl
@[simp] theorem raiseRefuse_prev (c : Cause) (s : State) : (raiseRefuse c s).prev = s.prev := rfl
@[simp] theorem raiseRefuse_prev2 (c : Cause) (s : State) : (raiseRefuse c s).prev2 = s.prev2 := rfl
@[simp] theorem raiseRefuse_hdr (c : Cause) (s : State) : (raiseRefuse c s).hdr = s.hdr := rfl
@[simp] theorem raiseRefuse_body (c : Cause) (s : State) : (raiseRefuse c s).body = s.body := rfl
@[simp] theorem raiseRefuse_reg (c : Cause) (s : State) : (raiseRefuse c s).reg = s.reg := rfl
@[simp] theorem raiseRefuse_lastStatus (c : Cause) (s : State) : (raiseRefuse c s).lastStatus = s.lastStatus := rfl
@[simp] theorem raiseRefuse_statusValid (c : Cause) (s : State) : (raiseRefuse c s).statusValid = s.statusValid := rfl
@[simp] theorem raiseRefuse_diag (c : Cause) (s : State) : (raiseRefuse c s).diag = c := rfl
@[simp] theorem raiseRefuse_cfg (c : Cause) (s : State) : (raiseRefuse c s).cfg = s.cfg := rfl
@[simp] theorem raiseRefuse_port (c : Cause) (s : State) : (raiseRefuse c s).port = s.port := rfl
@[simp] theorem raiseRefuse_out (c : Cause) (s : State) : (raiseRefuse c s).out = s.out ++ [.diag c] := rfl

@[simp] theorem regSet_phase (f : FeatureId) (v : Bool) (s : State) : (regSet f v s).phase = s.phase := rfl
@[simp] theorem regSet_cnt (f : FeatureId) (v : Bool) (s : State) : (regSet f v s).cnt = s.cnt := rfl
@[simp] theorem regSet_prev (f : FeatureId) (v : Bool) (s : State) : (regSet f v s).prev = s.prev := rfl
@[simp] theorem regSet_prev2 (f : FeatureId) (v : Bool) (s : State) : (regSet f v s).prev2 = s.prev2 := rfl
@[simp] theorem regSet_hdr (f : FeatureId) (v : Bool) (s : State) : (regSet f v s).hdr = s.hdr := rfl
@[simp] theorem regSet_body (f : FeatureId) (v : Bool) (s : State) : (regSet f v s).body = s.body := rfl
@[simp] theorem regSet_reg (f : FeatureId) (v : Bool) (s : State) : (regSet f v s).reg = s.reg.set (featureNum f) v := rfl
@[simp] theorem regSet_lastStatus (f : FeatureId) (v : Bool) (s : State) : (regSet f v s).lastStatus = s.lastStatus := rfl
@[simp] theorem regSet_statusValid (f : FeatureId) (v : Bool) (s : State) : (regSet f v s).statusValid = s.statusValid := rfl
@[simp] theorem regSet_diag (f : FeatureId) (v : Bool) (s : State) : (regSet f v s).diag = s.diag := rfl
@[simp] theorem regSet_cfg (f : FeatureId) (v : Bool) (s : State) : (regSet f v s).cfg = s.cfg := rfl
@[simp] theorem regSet_port (f : FeatureId) (v : Bool) (s : State) : (regSet f v s).port = s.port := rfl
@[simp] theorem regSet_out (f : FeatureId) (v : Bool) (s : State) : (regSet f v s).out = s.out := rfl

@[simp] theorem retain_phase (p : Payload) (s : State) : (retain p s).phase = s.phase := rfl
@[simp] theorem retain_cnt (p : Payload) (s : State) : (retain p s).cnt = s.cnt := rfl
@[simp] theorem retain_prev (p : Payload) (s : State) : (retain p s).prev = s.prev := rfl
@[simp] theorem retain_prev2 (p : Payload) (s : State) : (retain p s).prev2 = s.prev2 := rfl
@[simp] theorem retain_hdr (p : Payload) (s : State) : (retain p s).hdr = s.hdr := rfl
@[simp] theorem retain_body (p : Payload) (s : State) : (retain p s).body = s.body := rfl
@[simp] theorem retain_reg (p : Payload) (s : State) : (retain p s).reg = s.reg := rfl
@[simp] theorem retain_lastStatus (p : Payload) (s : State) : (retain p s).lastStatus = p := rfl
@[simp] theorem retain_statusValid (p : Payload) (s : State) : (retain p s).statusValid = true := rfl
@[simp] theorem retain_diag (p : Payload) (s : State) : (retain p s).diag = s.diag := rfl
@[simp] theorem retain_cfg (p : Payload) (s : State) : (retain p s).cfg = s.cfg := rfl
@[simp] theorem retain_port (p : Payload) (s : State) : (retain p s).port = s.port := rfl
@[simp] theorem retain_out (p : Payload) (s : State) : (retain p s).out = s.out := rfl

/-- The registry is read through its field alone. -/
@[simp] theorem regGet_emit (o : Output) (s : State) (f : FeatureId) : regGet (emit o s) f = regGet s f := rfl

@[simp] theorem regGet_begin (s : State) (f : FeatureId) : regGet (begin s) f = regGet s f := rfl

@[simp] theorem regGet_retain (p : Payload) (s : State) (f : FeatureId) : regGet (retain p s) f = regGet s f := rfl

theorem featureNum_injective {f g : FeatureId} (h : featureNum f = featureNum g) : f = g := by
  revert h; cases f <;> cases g <;> decide

@[simp] theorem featureOfNum_featureField (f : FeatureId) : featureOfNum (featureField f) = f := by
  cases f <;> rfl

@[simp] theorem featureField_featureOfNum : ∀ c : BitVec 4, featureField (featureOfNum c) = c := by decide

@[simp] theorem regGet_regSet_same (f : FeatureId) (v : Bool) (s : State) : regGet (regSet f v s) f = v := by
  simp [regGet]

theorem regGet_regSet_ne {f g : FeatureId} (h : g ≠ f) (v : Bool) (s : State) :
    regGet (regSet f v s) g = regGet s g := by
  have hne : (featureNum f).val ≠ (featureNum g).val :=
    fun e => h (featureNum_injective (Fin.ext e.symm))
  simp [regGet, Vector.getElem_set_ne _ _ hne]

end Sys2Proof.Machine
end

