-- ==== Sys2Proof/Laws/Interp.lean ====
section
/-! SUPPORT. What the interpreter and the transmit sequence do: one lemma each, which later proofs cite instead of
unfolding them. -/

namespace Sys2Proof.Machine

/-! ### Transmission -/

theorem emitTx_eq (bs : List Byte) (s : State) : emitTx bs s = { s with out := s.out ++ bs.map .tx } := by
  induction bs generalizing s with
  | nil => simp [emitTx]
  | cons b bs ih => simp [emitTx, ih, emit]

/-! ### The registry refresh -/

/-- One refresh writes the registry and appends to the outputs, nothing else. -/
theorem refresh_eq (s : State) (e : FeatureId × Bool) :
    refresh s e = { s with
      reg := s.reg.set (featureNum e.1) e.2
      out := s.out ++ (if regGet s e.1 ≠ e.2 then [.featurePush e.1 e.2] else []) } := by
  unfold refresh
  split <;> simp [regSet, emit]

/-- The refresh loop writes the registry and appends to the outputs, nothing else. -/
theorem foldl_refresh_frame (l : List (FeatureId × Bool)) (s : State) :
    l.foldl refresh s = { s with reg := (l.foldl refresh s).reg, out := (l.foldl refresh s).out } := by
  induction l generalizing s with
  | nil => rfl
  | cons e l ih => rw [List.foldl_cons, ih, refresh_eq]

/-- An entry the loop does not name keeps its value. -/
theorem regGet_foldl_refresh_of_notMem {f : FeatureId} (l : List (FeatureId × Bool)) (s : State)
    (hf : f ∉ l.map Prod.fst) : regGet (l.foldl refresh s) f = regGet s f := by
  induction l generalizing s with
  | nil => rfl
  | cons e l ih =>
    simp only [List.map_cons, List.mem_cons, not_or] at hf
    rw [List.foldl_cons, ih _ hf.2, refresh, regGet_regSet_ne hf.1]
    split <;> rfl

/-- After the loop an entry holds its last reported value, which for distinct entries is the reported one. -/
theorem regGet_foldl_refresh {f : FeatureId} (l : List (FeatureId × Bool)) (s : State)
    (hl : (l.map Prod.fst).Nodup) :
    regGet (l.foldl refresh s) f = (l.lookup f).getD (regGet s f) := by
  induction l generalizing s with
  | nil => rfl
  | cons e l ih =>
    obtain ⟨g, v⟩ := e
    simp only [List.map_cons, List.nodup_cons] at hl
    rw [List.foldl_cons]
    by_cases hf : f = g
    · subst hf
      rw [regGet_foldl_refresh_of_notMem _ _ hl.1]
      simp [refresh, List.lookup]
    · rw [ih _ hl.2]
      have h1 : regGet (refresh s (g, v)) f = regGet s f := by
        rw [refresh, regGet_regSet_ne hf]; split <;> rfl
      have h2 : (f == g) = false := by simp [hf]
      simp [List.lookup, h1, h2]

/-- The loop pushes exactly the reported values that differ from the registry before it, in order. -/
theorem out_foldl_refresh (l : List (FeatureId × Bool)) (s : State) (hl : (l.map Prod.fst).Nodup) :
    (l.foldl refresh s).out =
      s.out ++ (l.filter (fun e => regGet s e.1 != e.2)).map (fun e => .featurePush e.1 e.2) := by
  induction l generalizing s with
  | nil => simp
  | cons e l ih =>
    simp only [List.map_cons, List.nodup_cons] at hl
    have hsame : ∀ e' ∈ l, (regGet (refresh s e) e'.1 != e'.2) = (regGet s e'.1 != e'.2) := by
      intro e' he'
      have hne : e'.1 ≠ e.1 := fun h => hl.1 (h ▸ List.mem_map_of_mem he')
      have : regGet (refresh s e) e'.1 = regGet s e'.1 := by
        rw [refresh, regGet_regSet_ne hne]; split <;> rfl
      rw [this]
    rw [List.foldl_cons, ih _ hl.2, List.filter_congr hsame, refresh_eq]
    by_cases h : regGet s e.1 = e.2 <;> simp [h]

theorem nodup_reported (c : Config) (p : Payload) : ((reported c p).map Prod.fst).Nodup := by
  simp only [reported, equip1Map, equip2Map, List.map_append, List.map_cons, List.map_nil]
  decide

/-! ### Acceptance and interpretation -/

/-- Accepting a payload retains it, refreshes the registry and appends pushes, nothing else (41_status_interp.md R138). -/
theorem acceptStatus_eq (p : Payload) (s : State) :
    acceptStatus p s = { s with
      lastStatus := p
      statusValid := true
      reg := ((reported s.cfg p).foldl refresh (retain p s)).reg
      out := s.out ++ ((reported s.cfg p).filter (fun e => regGet s e.1 != e.2)).map (fun e => .featurePush e.1 e.2) ++
        [.telemetryPush .air (payloadByte s.cfg p .airTemp), .telemetryPush .water (payloadByte s.cfg p .waterTemp)] } := by
  unfold acceptStatus pushTelemetry updateRegistry
  rw [foldl_refresh_frame]
  simp [emit, out_foldl_refresh _ _ (nodup_reported _ _)]

theorem interpret_of_length_ne {h : Header} {b : List Byte} (s : State) (hb : b.length ≠ statusLen) :
    interpret h b s = raiseRefuse .malformedStatusLength s := dif_neg hb

theorem interpret_of_guard_false {h : Header} {b : List Byte} {s : State} (hb : b.length = statusLen)
    (hg : guardOk s.cfg h = false) : interpret h b s = raiseRefuse .unknownInnerCommand s := by
  simp [interpret, hb, hg]

theorem interpret_of_guard_true {h : Header} {b : List Byte} {s : State} (hb : b.length = statusLen)
    (hg : guardOk s.cfg h = true) : interpret h b s = acceptStatus ⟨b.toArray, hb⟩ s := by
  simp [interpret, hb, hg]

/-- Everything `interpret` can do (41_status_interp.md R130): refuse for the length, refuse for the guard, accept. -/
theorem interpret_cases (h : Header) (b : List Byte) (s : State) :
    (b.length ≠ statusLen ∧ interpret h b s = raiseRefuse .malformedStatusLength s) ∨
    (b.length = statusLen ∧ guardOk s.cfg h = false ∧ interpret h b s = raiseRefuse .unknownInnerCommand s) ∨
    (∃ hb : b.length = statusLen, guardOk s.cfg h = true ∧ interpret h b s = acceptStatus ⟨b.toArray, hb⟩ s) := by
  by_cases hb : b.length = statusLen
  · cases hg : guardOk s.cfg h
    · exact .inr (.inl ⟨hb, rfl, interpret_of_guard_false hb hg⟩)
    · exact .inr (.inr ⟨hb, rfl, interpret_of_guard_true hb hg⟩)
  · exact .inl ⟨hb, interpret_of_length_ne s hb⟩

/-- The interpreter leaves the decoder, the body buffer, the configuration and the port (41_status_interp.md R130). -/
theorem interpret_frame (h : Header) (b : List Byte) (s : State) :
    interpret h b s = { s with
      reg := (interpret h b s).reg
      lastStatus := (interpret h b s).lastStatus
      statusValid := (interpret h b s).statusValid
      diag := (interpret h b s).diag
      out := (interpret h b s).out } := by
  obtain ⟨-, he⟩ | ⟨-, -, he⟩ | ⟨_, -, he⟩ := interpret_cases h b s
  · rw [he]; rfl
  · rw [he]; rfl
  · rw [he, acceptStatus_eq]

@[simp] theorem interpret_phase (h : Header) (b : List Byte) (s : State) : (interpret h b s).phase = s.phase := by
  rw [interpret_frame]
@[simp] theorem interpret_cnt (h : Header) (b : List Byte) (s : State) : (interpret h b s).cnt = s.cnt := by
  rw [interpret_frame]
@[simp] theorem interpret_prev (h : Header) (b : List Byte) (s : State) : (interpret h b s).prev = s.prev := by
  rw [interpret_frame]
@[simp] theorem interpret_prev2 (h : Header) (b : List Byte) (s : State) : (interpret h b s).prev2 = s.prev2 := by
  rw [interpret_frame]
@[simp] theorem interpret_hdr (h : Header) (b : List Byte) (s : State) : (interpret h b s).hdr = s.hdr := by
  rw [interpret_frame]
@[simp] theorem interpret_body (h : Header) (b : List Byte) (s : State) : (interpret h b s).body = s.body := by
  rw [interpret_frame]
@[simp] theorem interpret_cfg (h : Header) (b : List Byte) (s : State) : (interpret h b s).cfg = s.cfg := by
  rw [interpret_frame]
@[simp] theorem interpret_port (h : Header) (b : List Byte) (s : State) : (interpret h b s).port = s.port := by
  rw [interpret_frame]

/-- The interpreter appends to the outputs. -/
theorem interpret_out (h : Header) (b : List Byte) (s : State) : ∃ l, (interpret h b s).out = s.out ++ l := by
  obtain ⟨-, he⟩ | ⟨-, -, he⟩ | ⟨_, -, he⟩ := interpret_cases h b s
  · exact ⟨_, by rw [he]; rfl⟩
  · exact ⟨_, by rw [he]; rfl⟩
  · exact ⟨_, by rw [he, acceptStatus_eq]; exact List.append_assoc _ _ _⟩

end Sys2Proof.Machine
end

