-- ==== Sys2Proof/Laws/Memory.lean ====
section
/-! SUPPORT. The body buffer: a read after a write, and the canonical form. -/

namespace Sys2Proof.Machine

/-- A write leaves every other cell alone, in canonical form or not. -/
theorem Memory.read_write_ne (m : Memory) {a c : Nat} (h : c ≠ a) (v : Byte) :
    (Memory.write m a v).read c = m.read c := by
  induction m with
  | nil => by_cases hv : v = Memory.unlisted <;> simp [Memory.write, Memory.read, hv, Ne.symm h]
  | cons e m ih =>
    obtain ⟨k, w⟩ := e
    simp only [Memory.write]
    split
    · split <;> simp [Memory.read, Ne.symm h]
    · split
      · next hk =>
        have : k ≠ c := by omega
        split <;> simp [Memory.read, this, Ne.symm h]
      · simp [Memory.read, ih]

/-- Cells below every listed address read as unlisted. -/
theorem Memory.read_of_forall_ne (m : Memory) {a : Nat} (h : ∀ c ∈ m, c.1 ≠ a) : m.read a = Memory.unlisted := by
  induction m with
  | nil => rfl
  | cons e m ih =>
    have h1 : e.1 ≠ a := h e (by simp)
    simp [Memory.read, h1, ih (fun c hc => h c (by simp [hc]))]

theorem Memory.wf_cons {k : Nat} {w : Byte} {m : Memory} :
    Memory.wf ((k, w) :: m) = true ↔
      k < bodyCap ∧ w ≠ Memory.unlisted ∧ (∀ c ∈ m, k < c.1) ∧ Memory.wf m = true := by
  simp [Memory.wf, and_assoc]

/-- A read after a write gives the byte written. -/
theorem Memory.read_write_same {m : Memory} (hm : m.wf = true) (a : Nat) (v : Byte) :
    (Memory.write m a v).read a = v := by
  induction m with
  | nil => by_cases hv : v = Memory.unlisted <;> simp [Memory.write, Memory.read, hv]
  | cons e m ih =>
    obtain ⟨k, w⟩ := e
    obtain ⟨-, -, hk, hm⟩ := Memory.wf_cons.1 hm
    simp only [Memory.write]
    split
    · next hak =>
      split
      · next hv =>
        rw [hv]
        refine Memory.read_of_forall_ne _ (fun c hc => ?_)
        rcases List.mem_cons.1 hc with rfl | hc
        · exact Nat.ne_of_gt hak
        · have := hk c hc; omega
      · simp [Memory.read]
    · split
      · next hak =>
        split
        · next hv => rw [hv]; exact Memory.read_of_forall_ne _ (fun c hc => by have := hk c hc; omega)
        · simp [Memory.read]
      · next h1 h2 => simp [Memory.read, Ne.symm h2, ih hm]

/-- The addresses a write leaves listed are old ones or the one written. -/
theorem Memory.mem_write {m : Memory} {a : Nat} {v : Byte} {c : Host.Cell} (h : c ∈ Memory.write m a v) :
    c = (a, v) ∨ c ∈ m := by
  induction m with
  | nil => by_cases hv : v = Memory.unlisted <;> simp_all [Memory.write]
  | cons e m ih =>
    obtain ⟨k, w⟩ := e
    simp only [Memory.write] at h
    split at h
    · split at h
      · exact .inr h
      · simpa using h
    · split at h
      · split at h
        · exact .inr (List.mem_cons_of_mem _ h)
        · rcases List.mem_cons.1 h with h | h
          · exact .inl h
          · exact .inr (List.mem_cons_of_mem _ h)
      · rcases List.mem_cons.1 h with h | h
        · exact .inr (by simp [h])
        · exact (ih h).imp_right (List.mem_cons_of_mem _)

/-- A write keeps the canonical form. -/
theorem Memory.wf_write {m : Memory} (hm : m.wf = true) {a : Nat} (ha : a < bodyCap) (v : Byte) :
    Memory.wf (Memory.write m a v) = true := by
  induction m with
  | nil => by_cases hv : v = Memory.unlisted <;> simp [Memory.write, Memory.wf, hv, ha]
  | cons e m ih =>
    obtain ⟨k, w⟩ := e
    have hm' := hm
    obtain ⟨hb, hw, hk, hm⟩ := Memory.wf_cons.1 hm
    simp only [Memory.write]
    split
    · next hak =>
      split
      · exact hm'
      · next hv =>
        refine Memory.wf_cons.2 ⟨ha, hv, fun c hc => ?_, hm'⟩
        rcases List.mem_cons.1 hc with rfl | hc
        · exact hak
        · have := hk c hc; omega
    · split
      · next hak =>
        split
        · exact hm
        · next hv => exact Memory.wf_cons.2 ⟨ha, hv, fun c hc => by have := hk c hc; omega, hm⟩
      · next h1 h2 =>
        refine Memory.wf_cons.2 ⟨hb, hw, fun c hc => ?_, ih hm⟩
        rcases Memory.mem_write hc with rfl | hc
        · show k < a; omega
        · exact hk c hc

/-- The power-up buffer is in canonical form. -/
theorem Memory.wf_nil : Memory.wf [] = true := rfl

end Sys2Proof.Machine
end

