-- ==== Sys2Proof/Laws/Rx.lean ====
section
/-! SUPPORT. The `RX` byte: one equation per row of the transition table (40_rx_sync.md R112), and feeding bursts. -/

namespace Sys2Proof.Machine

/-! ### andThen -/

@[simp] theorem andThen_next (s : State) (k : State → Result) : andThen (.next s) k = k s := rfl
@[simp] theorem andThen_fault (f : Fault) (k : State → Result) : andThen (.fault f) k = .fault f := rfl
@[simp] theorem andThen_refused (r : Refusal) (k : State → Result) : andThen (.refused r) k = .refused r := rfl

theorem andThen_eq_next {r : Result} {k : State → Result} {t : State} (h : andThen r k = .next t) :
    ∃ s, r = .next s ∧ k s = .next t := by
  cases r with
  | next s => exact ⟨s, rfl, h⟩
  | fault f => cases h
  | refused f => cases h

/-! ### The header bytes -/

theorem Header.put_isSome {i : Nat} (hi : i ≤ 4) (h : Header) (b : Byte) : ∃ h', h.put i b = some h' := by
  match i, hi with
  | 0, _ => exact ⟨_, rfl⟩
  | 1, _ => exact ⟨_, rfl⟩
  | 2, _ => exact ⟨_, rfl⟩
  | 3, _ => exact ⟨_, rfl⟩
  | 4, _ => exact ⟨_, rfl⟩

theorem Header.put_eq_none {i : Nat} (hi : 4 < i) (h : Header) (b : Byte) : h.put i b = none := by
  match i, hi with
  | i + 5, _ => rfl

theorem Header.put_some_le {i : Nat} {h h' : Header} {b : Byte} (he : h.put i b = some h') : i ≤ 4 := by
  by_contra hi
  rw [Header.put_eq_none (by omega)] at he
  cases he

/-! ### One byte, by phase -/

theorem rxByte_scanning {s : State} (h : s.phase = .scanning) (b : Byte) : rxByte b s = .next (rxScan b s) := by
  simp [rxByte, h]

theorem rxByte_readingHeader {s : State} (h : s.phase = .readingHeader) (b : Byte) : rxByte b s = rxHeader b s := by
  simp [rxByte, h]

theorem rxByte_readingBody {s : State} (h : s.phase = .readingBody) (b : Byte) : rxByte b s = rxBody b s := by
  simp [rxByte, h]

theorem rxScan_of_sof {s : State} {b : Byte} (h : isSof s.prev2 s.prev b = true) :
    rxScan b s = emit (.ev .needMoreInput) { s with phase := .readingHeader, cnt := 0, prev := 0x00, prev2 := 0x00 } := by
  simp [rxScan, h]

theorem rxScan_of_miss {s : State} {b : Byte} (h : isSof s.prev2 s.prev b = false) :
    rxScan b s = emit (.ev .needMoreInput) { s with prev2 := s.prev, prev := b } := by
  simp [rxScan, h]

/-- The count after one more byte, below the byte's range. -/
theorem cnt_succ_toNat {c : Byte} (h : c.toNat < 255) : (c + 1).toNat = c.toNat + 1 := by
  rw [BitVec.toNat_add]
  exact Nat.mod_eq_of_lt (show c.toNat + 1 < 256 by omega)

theorem rxHeader_early {s : State} {b : Byte} {h' : Header} (hc : s.cnt.toNat < 4)
    (hp : s.hdr.put s.cnt.toNat b = some h') :
    rxHeader b s = .next (emit (.ev .needMoreInput) { s with hdr := h', cnt := s.cnt + 1 }) := by
  have h1 : (s.cnt + 1).toNat < 5 := by rw [cnt_succ_toNat (by omega)]; omega
  simp only [rxHeader, hp]
  exact if_pos h1

theorem rxHeader_fifth {s : State} (hc : s.cnt = 4) (b : Byte) :
    rxHeader b s = .next (headerComplete { s with hdr := { s.hdr with len := b }, cnt := 5 }) := by
  simp [rxHeader, hc, Header.put]

theorem rxHeader_fault {s : State} (hc : 4 < s.cnt.toNat) (b : Byte) : rxHeader b s = .fault .hdrIndexOutOfRange := by
  simp [rxHeader, Header.put_eq_none hc]

/-- Everything `header_complete` can do (40_rx_sync.md R105 to R110). -/
theorem headerComplete_cases (s : State) :
    (tripleOk s.cfg s.hdr = false ∧ headerComplete s = raiseDiscard .headerRejected s) ∨
    (tripleOk s.cfg s.hdr = true ∧ 128 < s.hdr.len.toNat ∧ headerComplete s = raiseDiscard .oversizedBody s) ∨
    (tripleOk s.cfg s.hdr = true ∧ s.hdr.len = 0 ∧ headerComplete s = raiseRefuse .malformedStatusLength
      (emit (.ev (.frameReady s.hdr [])) (enterScanning s))) ∨
    (tripleOk s.cfg s.hdr = true ∧ 1 ≤ s.hdr.len.toNat ∧ s.hdr.len.toNat ≤ 128 ∧
      headerComplete s = emit .yield (emit (.ev .needMoreInput) { s with phase := .readingBody, cnt := 0 })) := by
  unfold headerComplete
  by_cases ht : tripleOk s.cfg s.hdr = false
  · exact .inl ⟨ht, by simp [ht]⟩
  · have ht' : tripleOk s.cfg s.hdr = true := by simpa using ht
    refine .inr ?_
    by_cases ho : 128 < s.hdr.len.toNat
    · exact .inl ⟨ht', ho, by simp [ht', oversized, ho]⟩
    · refine .inr ?_
      by_cases hz : s.hdr.len = 0
      · refine .inl ⟨ht', hz, ?_⟩
        simp only [ht', hz, oversized]
        rw [interpret_of_length_ne _ (by decide)]
        simp
      · refine .inr ⟨ht', ?_, by omega, by simp only [ht', oversized, ho]; exact if_neg hz⟩
        have : s.hdr.len.toNat ≠ 0 := fun h => hz (BitVec.eq_of_toNat_eq h)
        omega

theorem rxBody_fault {s : State} (hc : 127 < s.cnt.toNat) (b : Byte) : rxBody b s = .fault .bodyIndexOutOfRange := by
  exact if_neg (show ¬ s.cnt.toNat < bodyCap by simp only [bodyCap]; omega)

theorem rxBody_early {s : State} (hc : s.cnt.toNat < 128) (hl : s.cnt.toNat + 1 < s.hdr.len.toNat) (b : Byte) :
    rxBody b s = .next (emit (.ev .needMoreInput)
      { s with body := s.body.write s.cnt.toNat b, cnt := s.cnt + 1 }) := by
  have h2 : (s.cnt + 1).toNat < s.hdr.len.toNat := by rw [cnt_succ_toNat (by omega)]; omega
  exact (if_pos hc).trans (if_pos h2)

theorem rxBody_last {s : State} (hc : s.cnt.toNat < 128) (hl : s.hdr.len.toNat ≤ s.cnt.toNat + 1) (b : Byte) :
    rxBody b s = .next (bodyComplete { s with body := s.body.write s.cnt.toNat b, cnt := s.cnt + 1 }) := by
  have h2 : ¬ (s.cnt + 1).toNat < s.hdr.len.toNat := by rw [cnt_succ_toNat (by omega)]; omega
  exact (if_pos hc).trans (if_neg h2)

/-- The bytes of a completed body: those stored before and the last one. -/
theorem bodyBytes_write {s : State} (hm : s.body.wf = true) (n : Nat) (b : Byte) :
    (List.range (n + 1)).map (Memory.read (s.body.write n b)) = (List.range n).map s.body.read ++ [b] := by
  rw [List.range_succ, List.map_append]
  congr 1
  · refine List.map_congr_left (fun a ha => ?_)
    rw [Memory.read_write_ne _ (by have := List.mem_range.1 ha; omega)]
  · simp [Memory.read_write_same hm]

theorem phase_cases (p : Phase) : p = .scanning ∨ p = .readingHeader ∨ p = .readingBody := by
  cases p <;> simp

/-- Everything a fed byte can do when it answers a next state (40_rx_sync.md R112). -/
theorem rxByte_cases {b : Byte} {s t : State} (h : rxByte b s = .next t) :
    (s.phase = .scanning ∧ isSof s.prev2 s.prev b = true ∧ t = emit (.ev .needMoreInput)
      { s with phase := .readingHeader, cnt := 0, prev := 0x00, prev2 := 0x00 }) ∨
    (s.phase = .scanning ∧ isSof s.prev2 s.prev b = false ∧
      t = emit (.ev .needMoreInput) { s with prev2 := s.prev, prev := b }) ∨
    (s.phase = .readingHeader ∧ s.cnt.toNat < 4 ∧ ∃ h', s.hdr.put s.cnt.toNat b = some h' ∧
      t = emit (.ev .needMoreInput) { s with hdr := h', cnt := s.cnt + 1 }) ∨
    (s.phase = .readingHeader ∧ s.cnt = 4 ∧
      t = headerComplete { s with hdr := { s.hdr with len := b }, cnt := 5 }) ∨
    (s.phase = .readingBody ∧ s.cnt.toNat < 128 ∧ s.cnt.toNat + 1 < s.hdr.len.toNat ∧
      t = emit (.ev .needMoreInput) { s with body := s.body.write s.cnt.toNat b, cnt := s.cnt + 1 }) ∨
    (s.phase = .readingBody ∧ s.cnt.toNat < 128 ∧ s.hdr.len.toNat ≤ s.cnt.toNat + 1 ∧
      t = bodyComplete { s with body := s.body.write s.cnt.toNat b, cnt := s.cnt + 1 }) := by
  obtain hp | hp | hp := phase_cases s.phase
  · rw [rxByte_scanning hp] at h
    cases h
    cases hs : isSof s.prev2 s.prev b
    · exact .inr (.inl ⟨hp, rfl, rxScan_of_miss hs⟩)
    · exact .inl ⟨hp, rfl, rxScan_of_sof hs⟩
  · rw [rxByte_readingHeader hp] at h
    by_cases h5 : 4 < s.cnt.toNat
    · rw [rxHeader_fault h5] at h; cases h
    · by_cases h4 : s.cnt.toNat < 4
      · obtain ⟨h', hput⟩ := Header.put_isSome (Nat.le_of_lt h4) s.hdr b
        rw [rxHeader_early h4 hput] at h
        cases h
        exact .inr (.inr (.inl ⟨hp, h4, h', hput, rfl⟩))
      · have hc : s.cnt = 4 := BitVec.eq_of_toNat_eq (show s.cnt.toNat = 4 by omega)
        rw [rxHeader_fifth hc] at h
        cases h
        exact .inr (.inr (.inr (.inl ⟨hp, hc, rfl⟩)))
  · rw [rxByte_readingBody hp] at h
    by_cases h8 : 127 < s.cnt.toNat
    · rw [rxBody_fault h8] at h; cases h
    · by_cases hl : s.cnt.toNat + 1 < s.hdr.len.toNat
      · rw [rxBody_early (by omega) hl] at h
        cases h
        exact .inr (.inr (.inr (.inr (.inl ⟨hp, by omega, hl, rfl⟩))))
      · rw [rxBody_last (by omega) (by omega)] at h
        cases h
        exact .inr (.inr (.inr (.inr (.inr ⟨hp, by omega, by omega, rfl⟩))))

/-! ### Bursts -/

theorem feed_append (xs ys : List Byte) (s : State) : feed (xs ++ ys) s = andThen (feed xs s) (feed ys) := by
  induction xs generalizing s with
  | nil => rfl
  | cons x xs ih =>
    simp only [List.cons_append, feed]
    cases h : rxByte x s with
    | next t => simp [ih]
    | fault f => rfl
    | refused r => rfl

end Sys2Proof.Machine
end

