-- ==== Sys2Proof/Laws/Feed.lean ====
section
/-! SUPPORT. `RX` neither reads nor rewrites the outputs already emitted and what is still presented, so a burst can be
taken apart byte by byte. -/

namespace Sys2Proof.Machine

/-- A state with outputs put before its own and another port. -/
def inContext (o : List Output) (p : List Presented) (s : State) : State := { s with out := o ++ s.out, port := p }

/-- `inContext` on a result. -/
def Result.inContext (o : List Output) (p : List Presented) : Result → Result
  | .next s => .next (Machine.inContext o p s)
  | .fault f => .fault f
  | .refused r => .refused r

variable (o : List Output) (p : List Presented)

theorem emit_inContext (x : Output) (s : State) : emit x (inContext o p s) = inContext o p (emit x s) := by
  simp [emit, inContext]

theorem raiseDiscard_inContext (c : Cause) (s : State) :
    raiseDiscard c (inContext o p s) = inContext o p (raiseDiscard c s) := by
  simp [raiseDiscard, emit, inContext, enterScanning]

theorem raiseRefuse_inContext (c : Cause) (s : State) :
    raiseRefuse c (inContext o p s) = inContext o p (raiseRefuse c s) := by
  simp [raiseRefuse, emit, inContext]

theorem enterScanning_inContext (s : State) : enterScanning (inContext o p s) = inContext o p (enterScanning s) := rfl

theorem refresh_inContext (s : State) (e : FeatureId × Bool) :
    refresh (inContext o p s) e = inContext o p (refresh s e) := by
  rw [refresh_eq, refresh_eq]
  have : regGet (inContext o p s) e.1 = regGet s e.1 := rfl
  rw [this]
  simp [inContext]

theorem foldl_refresh_inContext (l : List (FeatureId × Bool)) (s : State) :
    l.foldl refresh (inContext o p s) = inContext o p (l.foldl refresh s) := by
  induction l generalizing s with
  | nil => rfl
  | cons e l ih => rw [List.foldl_cons, List.foldl_cons, refresh_inContext, ih]

theorem acceptStatus_inContext (q : Payload) (s : State) :
    acceptStatus q (inContext o p s) = inContext o p (acceptStatus q s) := by
  have h : retain q (inContext o p s) = inContext o p (retain q s) := rfl
  have hc : ∀ s, (inContext o p s).cfg = s.cfg := fun _ => rfl
  simp only [acceptStatus, pushTelemetry, updateRegistry, h, hc, foldl_refresh_inContext, emit_inContext]

theorem interpret_inContext (h : Header) (b : List Byte) (s : State) :
    interpret h b (inContext o p s) = inContext o p (interpret h b s) := by
  have hc : (inContext o p s).cfg = s.cfg := rfl
  obtain ⟨hb, he⟩ | ⟨hb, hg, he⟩ | ⟨hb, hg, he⟩ := interpret_cases h b s <;> rw [he]
  · rw [interpret_of_length_ne _ hb, raiseRefuse_inContext]
  · rw [interpret_of_guard_false hb (hc ▸ hg), raiseRefuse_inContext]
  · rw [interpret_of_guard_true hb (hc ▸ hg), acceptStatus_inContext]

theorem headerComplete_inContext (s : State) :
    headerComplete (inContext o p s) = inContext o p (headerComplete s) := by
  have hc : (inContext o p s).cfg = s.cfg := rfl
  have hh : (inContext o p s).hdr = s.hdr := rfl
  unfold headerComplete
  rw [hc, hh]
  split
  · exact raiseDiscard_inContext o p _ _
  · split
    · exact raiseDiscard_inContext o p _ _
    · split
      · rw [enterScanning_inContext, emit_inContext, interpret_inContext]
      · rw [← emit_inContext, ← emit_inContext]; rfl

theorem bodyComplete_inContext (s : State) : bodyComplete (inContext o p s) = inContext o p (bodyComplete s) := by
  unfold bodyComplete
  simp only [enterScanning_inContext, emit_inContext, interpret_inContext]
  rfl

/-- One byte, in any context. -/
theorem rxByte_inContext (b : Byte) (s : State) :
    rxByte b (inContext o p s) = (rxByte b s).inContext o p := by
  obtain hp | hp | hp := phase_cases s.phase
  · rw [rxByte_scanning hp, rxByte_scanning (s := inContext o p s) hp]
    cases hs : isSof s.prev2 s.prev b
    · rw [rxScan_of_miss hs, rxScan_of_miss (s := inContext o p s) hs]
      simp [Result.inContext, inContext, emit]
    · rw [rxScan_of_sof hs, rxScan_of_sof (s := inContext o p s) hs]
      simp [Result.inContext, inContext, emit]
  · rw [rxByte_readingHeader hp, rxByte_readingHeader (s := inContext o p s) hp]
    by_cases h5 : 4 < s.cnt.toNat
    · rw [rxHeader_fault h5, rxHeader_fault (s := inContext o p s) h5]; rfl
    · by_cases h4 : s.cnt.toNat < 4
      · obtain ⟨h', hput⟩ := Header.put_isSome (Nat.le_of_lt h4) s.hdr b
        rw [rxHeader_early h4 hput, rxHeader_early (s := inContext o p s) h4 hput]
        simp [Result.inContext, inContext, emit]
      · have hc : s.cnt = 4 := BitVec.eq_of_toNat_eq (show s.cnt.toNat = 4 by omega)
        rw [rxHeader_fifth hc, rxHeader_fifth (s := inContext o p s) hc, Result.inContext, ← headerComplete_inContext]
        rfl
  · rw [rxByte_readingBody hp, rxByte_readingBody (s := inContext o p s) hp]
    by_cases h8 : 127 < s.cnt.toNat
    · rw [rxBody_fault h8, rxBody_fault (s := inContext o p s) h8]; rfl
    · have h8' : s.cnt.toNat < 128 := by omega
      by_cases hl : s.cnt.toNat + 1 < s.hdr.len.toNat
      · rw [rxBody_early h8' hl, rxBody_early (s := inContext o p s) h8' hl]
        simp [Result.inContext, inContext, emit]
      · have hl' : s.hdr.len.toNat ≤ s.cnt.toNat + 1 := by omega
        rw [rxBody_last h8' hl', rxBody_last (s := inContext o p s) h8' hl', Result.inContext, ← bodyComplete_inContext]
        rfl

/-- A burst, in any context. -/
theorem feed_inContext (bs : List Byte) (s : State) :
    feed bs (inContext o p s) = (feed bs s).inContext o p := by
  induction bs generalizing s with
  | nil => rfl
  | cons b bs ih =>
    simp only [feed, rxByte_inContext]
    cases rxByte b s with
    | next t => exact ih t
    | fault f => rfl
    | refused r => rfl

/-- The outputs of a burst come after those already emitted. -/
theorem feed_eq_begin (bs : List Byte) (s : State) : feed bs s = (feed bs (begin s)).inContext s.out s.port := by
  rw [← feed_inContext]
  congr 1
  simp [inContext, begin]

/-- A property of pairs of states that every fed byte has, and that composes, every burst has. -/
theorem feed_induction {P : State → State → Prop} (hr : ∀ s, P s s) (ht : ∀ s t u, P s t → P t u → P s u)
    (h1 : ∀ b s t, rxByte b s = .next t → P s t) :
    ∀ bs s t, feed bs s = .next t → P s t := by
  intro bs
  induction bs with
  | nil => intro s t h; cases h; exact hr s
  | cons b bs ih =>
    intro s t h
    obtain ⟨u, h2, h3⟩ := andThen_eq_next h
    exact ht _ _ _ (h1 _ _ _ h2) (ih _ _ h3)

end Sys2Proof.Machine
end

