-- ==== Sys2Proof/Laws/Burst.lean ====
section
/-! SUPPORT. What feeding the parts of a frame does: its marker, its five header bytes, a first part of its body, and a
whole body. -/

namespace Sys2Proof.Machine

/-- Either start marker, fed while Scanning, opens a header, whatever the lookback. -/
theorem feed_marker (mk : Marker) (s : State) (hp : s.phase = .scanning) :
    feed (markerBytes mk) s = .next { s with
      phase := .readingHeader, cnt := 0, prev := 0, prev2 := 0
      out := s.out ++ List.replicate (markerBytes mk).length (.ev .needMoreInput) } := by
  cases mk <;> simp [feed, markerBytes, rxByte, hp, rxScan, isSof, emit, List.replicate]

/-- Five header bytes complete the header they spell. -/
theorem feed_header (h : Header) (s : State) (hp : s.phase = .readingHeader) (h0 : s.cnt = 0) :
    feed [h.typ, h.dst, h.src, h.cmd, h.len] s = .next (headerComplete { s with
      hdr := h, cnt := 5, out := s.out ++ List.replicate 4 (.ev .needMoreInput) }) := by
  simp [feed, rxByte, hp, h0, rxHeader, Header.put, emit, hdrFields, List.replicate]

/-- Body bytes that do not complete the body are stored from `cnt` on and counted. -/
theorem feed_body (bs : List Byte) (s : State) (hp : s.phase = .readingBody) (hw : s.body.wf = true)
    (hl : s.hdr.len.toNat ≤ 128) (hc : s.cnt.toNat + bs.length < s.hdr.len.toNat) :
    ∃ m c, feed bs s = .next { s with
        body := m, cnt := c, out := s.out ++ List.replicate bs.length (.ev .needMoreInput) } ∧
      c.toNat = s.cnt.toNat + bs.length ∧ m.wf = true ∧
      ∀ a, m.read a =
        if s.cnt.toNat ≤ a ∧ a < s.cnt.toNat + bs.length then bs.getD (a - s.cnt.toNat) 0 else s.body.read a := by
  induction bs generalizing s with
  | nil => exact ⟨s.body, s.cnt, by simp [feed], by simp, hw, fun a => by simp⟩
  | cons b bs ih =>
    simp only [List.length_cons] at hc
    have hcs : (s.cnt + 1).toNat = s.cnt.toNat + 1 := cnt_succ_toNat (by omega)
    simp only [feed]
    rw [rxByte_readingBody hp, rxBody_early (by omega) (by omega), andThen_next]
    obtain ⟨m, c, h1, h2, h3, h4⟩ :=
      ih (emit (.ev .needMoreInput) { s with body := s.body.write s.cnt.toNat b, cnt := s.cnt + 1 }) hp
        (Memory.wf_write hw (by simp only [bodyCap]; omega) b) hl (by simp only [emit_cnt, emit_hdr]; omega)
    refine ⟨m, c, by rw [h1]; simp [emit, List.replicate_succ], ?_, h3, fun a => ?_⟩
    · rw [h2]; simp only [emit_cnt, List.length_cons]; omega
    · rw [h4]
      simp only [emit_cnt, emit_body, List.length_cons, hcs]
      by_cases ha : a = s.cnt.toNat
      · subst ha
        simp [Memory.read_write_same hw]
      · rw [Memory.read_write_ne _ ha]
        by_cases h5 : s.cnt.toNat + 1 ≤ a ∧ a < s.cnt.toNat + 1 + bs.length
        · rw [if_pos h5, if_pos (by omega)]
          obtain ⟨k, hk⟩ : ∃ k, a - s.cnt.toNat = k + 1 := ⟨a - s.cnt.toNat - 1, by omega⟩
          rw [hk, show a - (s.cnt.toNat + 1) = k by omega]
          simp
        · rw [if_neg h5, if_neg (by omega)]

/-- A whole body, fed from its first byte, is handed to the interpreter as it was fed. -/
theorem feed_whole_body (bs : List Byte) (s : State) (hp : s.phase = .readingBody) (hw : s.body.wf = true)
    (hl : s.hdr.len.toNat ≤ 128) (h0 : s.cnt = 0) (hn : bs ≠ []) (hc : bs.length = s.hdr.len.toNat) :
    ∃ m, feed bs s = .next (interpret s.hdr bs { s with
        phase := .scanning, cnt := 0, prev := 0, prev2 := 0, body := m
        out := s.out ++ List.replicate (bs.length - 1) (.ev .needMoreInput) ++ [.ev (.frameReady s.hdr bs)] }) ∧
      m.wf = true ∧ ∀ a, m.read a = if a < bs.length then bs.getD a 0 else s.body.read a := by
  obtain ⟨front, b, rfl⟩ : ∃ front b, bs = front ++ [b] :=
    ⟨bs.dropLast, bs.getLast hn, (List.dropLast_append_getLast hn).symm⟩
  simp only [List.length_append, List.length_singleton] at hc
  have hc0 : s.cnt.toNat = 0 := by rw [h0]; rfl
  obtain ⟨m, c, h1, h2, h3, h4⟩ := feed_body front s hp hw hl (by omega)
  rw [feed_append, h1, andThen_next]
  simp only [feed]
  rw [rxByte_readingBody (by exact hp), rxBody_last (by simp only; omega) (by simp only; omega)]
  simp only [andThen_next, bodyComplete, bodyBytes, h2, hc0, Nat.zero_add, ← hc]
  have hB : (List.range (front.length + 1)).map (Memory.read (m.write front.length b)) = front ++ [b] := by
    rw [List.range_succ, List.map_append]
    congr 1
    · refine List.ext_getElem (by simp) (fun k hk1 hk2 => ?_)
      simp only [List.getElem_map, List.getElem_range]
      rw [Memory.read_write_ne _ (by omega), h4, if_pos (by omega)]
      simp [hc0, List.getD, List.getElem?_eq_getElem hk2]
    · simp [Memory.read_write_same h3]
  rw [hB]
  refine ⟨m.write front.length b, by congr 2; simp [emit, enterScanning],
    Memory.wf_write h3 (by simp only [bodyCap]; omega) b, fun a => ?_⟩
  by_cases ha : a = front.length
  · subst ha
    simp [Memory.read_write_same h3]
  · rw [Memory.read_write_ne _ ha, h4]
    by_cases hlt : a < front.length
    · rw [if_pos (by omega), if_pos (by simp; omega)]
      simp [hc0, List.getD, List.getElem?_append_left hlt]
    · rw [if_neg (by omega), if_neg (by simp; omega)]

end Sys2Proof.Machine
end

