-- ==== Sys2Proof/Laws/Framer.lean ====
section
/-! SUPPORT. What a send does. -/

namespace Sys2Proof.Machine

/-- The transmit sequence appends its outputs and changes nothing else; the guard changes `diag` alone
(42_cmd_framer.md R156, R157). -/
theorem sendRaw_frame (dest : Byte) (on : Bool) (s : State) :
    sendRaw dest on s = { s with diag := (sendRaw dest on s).diag, out := (sendRaw dest on s).out } := by
  unfold sendRaw
  split
  · rfl
  · simp [transmit, emitTx_eq, emit]

end Sys2Proof.Machine
end

