-- ==== Sys2Proof/Tests/Slice0.lean ====
section
/-! SUPPORT. The model's own tests. Expected values are written out from spec/95_test_vectors.md (V<n>) or from the
encodings of spec/30_encoding.md. The second half gives, for every obligation with hypotheses, a concrete state and
operands that meet all of them together. -/

namespace Sys2Proof.Tests

open Sys2Proof.Machine Sys2Proof.Claims

/-! ### Helpers -/

/-- The next state, where there is one. -/
def next? (r : Host.Outcome State Fault Refusal) : Option State :=
  match r with
  | .next s => some s
  | .fault _ => none
  | .refused _ => none

/-- The outputs of a result. -/
def outs (r : Host.Outcome State Fault Refusal) : Option (List Output) := (next? r).map (·.out)

/-- Body bytes from address `a` on. -/
def bodyFrom : Nat → List Byte → Memory → Memory
  | _, [], m => m
  | a, b :: bs, m => bodyFrom (a + 1) bs (m.write a b)

/-- Reset, Scanning, with a lookback. -/
def scanAt (p2 p1 : Byte) : State := { State.reset with prev2 := p2, prev := p1 }

/-- In a header, `n` bytes collected. -/
def headerAt (n : Byte) (h : Header) : State := { State.reset with phase := .readingHeader, cnt := n, hdr := h }

/-- In the body of a status frame of dialect L, with the bytes received so far. -/
def bodyAt (cmd len : Byte) (bytes : List Byte) : State :=
  { State.reset with
    phase := .readingBody, cnt := BitVec.ofNat 8 bytes.length, hdr := ⟨0x02, 0x0F, 0x10, cmd, len⟩
    body := bodyFrom 0 bytes [] }

/-- Something presented at the port. -/
def presenting (p : Presented) (s : State) : State := { s with port := [p] }

/-- The body of V20. -/
def bodyV20 : List Byte :=
  [0x0D, 0x2A, 0x21, 0x02, 0, 0, 0, 0, 0, 0, 0, 0, 0, 0, 0x52, 0, 0, 0, 0x47] ++ List.replicate 8 0

/-- Configuration K with `tx_guard = true`. -/
def guarded (s : State) : State := { s with cfg := { Config.testK with txGuard := true } }

/-- Configuration K moved to dialect E. -/
def dialectE (s : State) : State := { s with cfg := { Config.testK with dialect := .E } }

/-- The registry as sixteen digits, `reg[0]` first (95_test_vectors.md, conventions). -/
def regDigits (s : State) : List Nat := s.reg.toList.map (fun b => if b then 1 else 0)

/-! ### WellFormed refuses -/

theorem test_wellFormed_statusL_refuses_short_body :
    (Instr.statusL .three 0x02 0x1B [0x0D] 0xD5).wellFormed = false ∧
    (Instr.statusL .three 0x02 0x01 [0x0D] 0xD5).wellFormed = true := by decide

theorem test_wellFormed_statusE_refuses_long_body :
    (Instr.statusE .two 0x33 0x05 0x01 [0x48, 0x49] 0x77).wellFormed = false ∧
    (Instr.statusE .two 0x33 0x05 0x01 [0x48] 0x77).wellFormed = true := by decide

/-- The parenthesis of V2 (`C9`) is not the checksum. -/
theorem test_wellFormed_circuit_refuses_wrong_sum :
    (Instr.circuit 0x10 0x20 true 0xC9).wellFormed = false ∧
    (Instr.circuit 0x10 0x20 true 0x6D).wellFormed = true := by decide

/-! ### Decoding, the words written out from 30_encoding.md R70 to R78, R82 and the tables of 95 -/

theorem test_decode_idle : decodeOpw 0b0000000000000000 = .ok .idle := by decide
theorem test_decode_rx : decodeOpw 0b0010000010100101 = .ok (.rx 0xA5) := by decide
theorem test_decode_cmdf : decodeOpw 0b0101011000000000 = .ok (.cmdf .pool true) ∧
    decodeOpw 0x5F00 = .ok (.cmdf .reserved15 true) ∧ decodeOpw 0x4600 = .ok (.cmdf .pool false) := by decide
theorem test_decode_cmda : decodeOpw 0b0111000001100000 = .ok (.cmda 0x60 true) ∧
    decodeOpw 0x6010 = .ok (.cmda 0x10 false) := by decide
theorem test_decode_query : decodeOpw 0b1000011000000000 = .ok (.query .pool) := by decide
theorem test_decode_reset : decodeOpw 0b1110000000000000 = .ok .reset := by decide
theorem test_decode_reserved_opc5 : decodeOpw 0b1011111111111111 = .ok (.reservedOpc5 0x1FFF) := by decide
theorem test_decode_reserved_opc6 : decodeOpw 0b1100000000000001 = .ok (.reservedOpc6 1) := by decide
theorem test_decode_sof2 : decodeWireIn [0xFF, 0xA5] = .ok .sof2 := by decide
theorem test_decode_sof3 : decodeWireIn [0xFF, 0x00, 0xA5] = .ok .sof3 := by decide
theorem test_decode_statusL :
    decodeWireIn ([0xFF, 0x00, 0xA5, 0x02, 0x0F, 0x10, 0x02, 0x1B] ++ bodyV20 ++ [0xD5]) =
      .ok (.statusL .three 0x02 0x1B bodyV20 0xD5) := by decide
theorem test_decode_statusE :
    decodeWireIn [0xFF, 0xA5, 0x14, 0x0F, 0x33, 0x05, 0x01, 0x48, 0x77] =
      .ok (.statusE .two 0x33 0x05 0x01 [0x48] 0x77) := by decide
theorem test_decode_circuit :
    decodeWireOut [0xFF, 0x00, 0xA5, 0x10, 0x60, 0x20, 0x86, 0x02, 0x01, 0xBD] =
      .ok (.circuit 0x60 0x20 true 0xBD) := by decide

/-- V66, V67: words with a nonzero must-be-zero field. -/
theorem test_decode_reserved_words :
    [0x2100, 0x0001, 0x4001, 0x6100, 0x9000, 0xE001].map decodeOpw =
      List.replicate 6 (.rejected .reservedWord) := by decide

/-- What the decoder rejects on the wire, by name. -/
theorem test_decode_rejects_by_name :
    decodeWireIn [0xFF] = .rejected .noStartMarker ∧
    decodeWireIn [0xFF, 0xA5, 0x02] = .rejected .shortHeader ∧
    decodeWireIn [0xFF, 0xA5, 0x03, 0x0F, 0x10, 0x02, 0x00, 0x00] = .rejected .notStatusHeader ∧
    decodeWireIn [0xFF, 0xA5, 0x02, 0x0F, 0x10, 0x02, 0x01, 0x48] = .rejected .wrongFrameLength ∧
    decodeWireOut [0xFF, 0x00, 0xA5, 0x10, 0x60, 0x20, 0x86, 0x02, 0x02, 0xBE] = .rejected .notCircuitFrame := by decide

/-- No two operation rows share a word: the rows differ in a bit that both fix. -/
theorem test_opw_rows_are_disjoint :
    opwRows.Pairwise (fun a b => a.value &&& (a.mask &&& b.mask) ≠ b.value &&& (a.mask &&& b.mask)) := by decide

/-! ### Table words (opcode_table.json: bit 0 is the least significant bit of the first byte) -/

theorem test_decodeTableWord_opw : decodeTableWord 16 0x7060 = some (.cmda 0x60 true) := by decide
theorem test_decodeTableWord_marker : decodeTableWord 24 0xA500FF = some .sof3 := by decide
theorem test_decodeTableWord_frame :
    decodeTableWord 64 0x0202100FA500FF = none ∧
    decodeTableWord 64 0x0202100F02A500FF = some (.statusL .three 0x02 0x02 [0, 0] 0) := by decide
theorem test_decodeTableWord_circuit :
    decodeTableWord 80 0x6D010286201010A500FF = some (.circuit 0x10 0x20 true 0x6D) := by decide

/-- The word placed by `withFetchWord` is the one the next step runs. -/
theorem test_withFetchWord_runs : outs (step (State.reset.withFetchWord 16 0xA000)) = some [.diag .illegalOp] := by
  decide
theorem test_withFetchWord_frame :
    (next? (step (State.reset.withFetchWord 24 0xA500FF))).map (·.phase) = some .readingHeader := by decide

/-! ### One step of each instruction -/

/-- V60. -/
theorem test_idle : next? (exec .idle (scanAt 0xFF 0x00)) = some (scanAt 0xFF 0x00) := by decide

/-- V15: two zeros before `A5`. -/
theorem test_rx_two_zeros_do_not_sync :
    (next? (exec (.rx 0xA5) (scanAt 0x00 0x00))).map (fun s => (s.phase, s.prev2, s.prev)) =
      some (.scanning, 0x00, 0xA5) := by decide

/-- V22: the fifth header byte. -/
theorem test_rx_fifth_header_byte_yields :
    outs (exec (.rx 0x1B) (headerAt 4 ⟨0x02, 0x0F, 0x10, 0x02, 0⟩)) = some [.ev .needMoreInput, .yield] := by decide

/-- V50. -/
theorem test_cmdf_pool_on :
    (next? (exec (.cmdf .pool true) State.reset)).map (fun s => (s.out, regDigits s)) =
      some ([.de true, .tx 0xFF, .tx 0x00, .tx 0xA5, .tx 0x10, .tx 0x10, .tx 0x20, .tx 0x86, .tx 0x02, .tx 0x01,
        .tx 0x6D, .de false, .featurePush .pool true], [0, 0, 0, 0, 0, 0, 1, 0, 0, 0, 0, 0, 0, 0, 0, 0]) := by decide

/-- V58: the guard fires before the binding is looked up. -/
theorem test_cmdf_guard_before_binding :
    outs (exec (.cmdf .waterFeature true) (guarded (headerAt 1 ⟨0x02, 0, 0, 0, 0⟩))) = some [.diag .cmdMidframe] := by
  decide

/-- V47 as an operation: the checksum wraps to 00. -/
theorem test_cmda_checksum_wraps :
    outs (exec (.cmda 0xA3 true) State.reset) =
      some [.de true, .tx 0xFF, .tx 0x00, .tx 0xA5, .tx 0x10, .tx 0xA3, .tx 0x20, .tx 0x86, .tx 0x02, .tx 0x01,
        .tx 0x00, .de false] := by decide

/-- V57. -/
theorem test_cmda_guarded :
    outs (exec (.cmda 0x60 true) (guarded (headerAt 1 ⟨0x02, 0, 0, 0, 0⟩))) = some [.diag .cmdMidframe] := by decide

/-- V61, V62: the entry before and after a command. -/
theorem test_query_reads_the_entry :
    outs (exec (.query .pool) State.reset) = some [.queryResult false] ∧
    outs (exec (.query .pool) (regSet .pool true State.reset)) = some [.queryResult true] := by decide

/-- V68: the reset record, but for the body buffer. -/
theorem test_reset_keeps_the_body :
    next? (exec .reset (regSet .pool true (bodyAt 0x02 0x1B [1, 2, 3, 4, 5, 6, 7]))) =
      some { State.reset with body := bodyFrom 0 [1, 2, 3, 4, 5, 6, 7] [] } := by decide

/-- V64, V65. -/
theorem test_reserved_opcodes :
    next? (exec (.reservedOpc5 0) State.reset) = some { State.reset with diag := .illegalOp, out := [.diag .illegalOp] } ∧
    next? (exec (.reservedOpc6 0) State.reset) =
      some { State.reset with diag := .illegalOp, out := [.diag .illegalOp] } := by decide

/-- V19: a second `FF` before the marker. -/
theorem test_sof2_after_ff :
    (next? (exec .sof2 (scanAt 0x00 0xFF))).map (fun s => (s.phase, s.cnt, s.prev2, s.prev)) =
      some (.readingHeader, 0, 0, 0) := by decide

/-- V19b with the three-byte form: a marker inside a header is header data. -/
theorem test_sof3_inside_a_header :
    (next? (exec .sof3 (headerAt 0 ⟨0, 0, 0, 0, 0⟩))).map (fun s => (s.phase, s.cnt, s.hdr)) =
      some (.readingHeader, 3, ⟨0xFF, 0x00, 0xA5, 0, 0⟩) := by decide

/-- V20, state. -/
theorem test_statusL_v20_state :
    (next? (exec (.statusL .three 0x02 0x1B bodyV20 0xD5) State.reset)).map
      (fun s => (s.phase, s.prev, regDigits s, s.lastStatus.toList, s.statusValid)) =
      some (.scanning, 0xD5, [0, 0, 0, 0, 0, 1, 1, 0, 1, 0, 0, 0, 0, 0, 0, 0], bodyV20, true) := by decide

/-- V34, outputs after the body: an unexpected command byte. -/
theorem test_statusL_v34_outputs :
    (outs (exec (.statusL .three 0x05 0x1B bodyV20 0xD8) State.reset)).map (·.drop 35) =
      some [.ev (.frameReady ⟨0x02, 0x0F, 0x10, 0x05, 0x1B⟩ bodyV20), .diag .unknownInnerCommand,
        .ev .needMoreInput] := by decide

/-- V23a's mirror: with dialect E configured the frame of dialect E decodes. -/
theorem test_statusE_under_dialect_E :
    (next? (exec (.statusE .two 0x10 0x05 0x1B bodyV20 0x00) (dialectE State.reset))).map regDigits =
      some [0, 0, 0, 0, 0, 1, 1, 0, 1, 0, 0, 0, 0, 0, 0, 0] := by decide

/-- V23a: under dialect L the header is rejected. -/
theorem test_statusE_under_dialect_L :
    (next? (exec (.statusE .three 0x10 0x02 0x00 [] 0x00) State.reset)).map (fun s => (s.phase, s.diag)) =
      some (.scanning, .headerRejected) := by decide

/-- V42 sent as a frame. -/
theorem test_circuit_v42 :
    outs (exec (.circuit 0x60 0x20 true 0xBD) State.reset) =
      some [.de true, .tx 0xFF, .tx 0x00, .tx 0xA5, .tx 0x10, .tx 0x60, .tx 0x20, .tx 0x86, .tx 0x02, .tx 0x01,
        .tx 0xBD, .de false] := by decide

/-- V66: a reserved word whose data byte is not fed. -/
theorem test_reserved_word_is_not_fed :
    (next? (step (presenting (.opw 0x21A5) (scanAt 0x00 0xFF)))).map (fun s => (s.phase, s.prev, s.out)) =
      some (.scanning, 0xFF, [.diag .illegalOp]) := by decide

/-- The host's side: a poll stops at the frame's `Yield` (43_host_ops.md R174), and the assembler's check of `NOISE`
(30_encoding.md R83). -/
theorem test_poll_stops_at_yield :
    (match poll [0xFF, 0xA5, 0x02, 0x0F, 0x10, 0x02, 0x1B, 0x0D] State.reset with
      | .next r => some r.rest
      | _ => none) = some [0x0D] := by decide
theorem test_noise_refuses_a_marker :
    (PseudoOp.noise [0x12, 0xFF, 0xA5]).expand = none ∧ (PseudoOp.noise [0x12, 0xFF]).expand = none ∧
    (PseudoOp.noise [0x12, 0xA5]).expand = some [.rx 0x12, .rx 0xA5] := by decide
theorem test_statusl_v20 :
    (PseudoOp.statusl 0x02 bodyV20).expand =
      some (([0xFF, 0x00, 0xA5, 0x02, 0x0F, 0x10, 0x02, 0x1B] ++ bodyV20 ++ [0xD5]).map .rx) := by decide
theorem test_asm_line : asmLine (.cmda 0x60 true) = some "CMDA 0x60, on" := by decide

/-! ### Witnesses: the hypotheses of each obligation, met together

Each line names a concrete state and operands; where a statement has several clauses, one line for each. -/

/-- There is a next state. -/
def answers (r : Host.Outcome State Fault Refusal) : Bool := (next? r).isSome

theorem answers_iff {r : Host.Outcome State Fault Refusal} : answers r = true → ∃ t, r = .next t := by
  cases r <;> simp [answers, next?]

theorem witness_StepRunsTheDecodedInstruction :
    (presenting (.opw 0x20A5) State.reset).port = .opw 0x20A5 :: [] ∧ decode (.opw 0x20A5) = .ok (.rx 0xA5) := by decide

theorem witness_StepWithNothingPresentedHoldsState : (scanAt 0xFF 0x00).port = [] := rfl

theorem witness_EveryUndefinedWordIsRefused :
    (presenting (.opw 0x2100) State.reset).port = .opw 0x2100 :: [] ∧
    ([0x2100, 0x0001, 0x4001, 0x6100, 0x9000, 0xE001, 0xA000, 0xDFFF, 0xFFFF] : List OpWord).all (fun w =>
      w != 0x0000 && w &&& 0xFF00 != 0x2000 && w &&& 0xE0FF != 0x4000 && w &&& 0xEF00 != 0x6000 &&
        w &&& 0xF0FF != 0x8000 && w != 0xE000) = true := by decide

theorem witness_DecodeOfEncodeIsTheInstruction :
    (Instr.statusE .two 0x33 0x05 0x01 [0x48] 0x77).wellFormed = true ∧
    (Instr.circuit 0xFF 0xFF true 0x3B).wellFormed = true ∧ (Instr.reservedOpc6 0x1FFF).wellFormed = true := by decide

theorem witness_EncodeOfDecodeIsThePresentation :
    decode (.wireIn [0xFF, 0xA5, 0x14, 0x0F, 0x33, 0x05, 0x01, 0x48, 0x77]) =
      .ok (.statusE .two 0x33 0x05 0x01 [0x48] 0x77) ∧ decode (.opw 0xDFFF) = .ok (.reservedOpc6 0x1FFF) := by decide

theorem witness_OtherOperationsLeaveTheDecoder :
    isReception .idle = false ∧ isReception (.cmdf .pool true) = false ∧ isReception (.cmda 0x60 true) = false ∧
    isReception (.query .pool) = false ∧ isReception (.reservedOpc5 0) = false ∧
    isReception (.reservedOpc6 0) = false ∧ isReception (.circuit 0x60 0x20 true 0xBD) = false ∧
    Instr.cmdf .pool true ≠ .reset := by decide

/-- V12, V15, V17. -/
theorem witness_ResyncMissChangesOnlyTheLookback :
    (scanAt 0x00 0x00).phase = .scanning ∧ ¬ CompletesMarker 0x00 0x00 0xA5 ∧ ¬ CompletesMarker 0xFF 0x01 0xA5 ∧
    ¬ CompletesMarker 0x00 0xFF 0x00 := by
  unfold CompletesMarker; decide

/-- V10, V11. -/
theorem witness_MarkerOpensAHeader :
    (scanAt 0xFF 0x00).phase = .scanning ∧ CompletesMarker 0xFF 0x00 0xA5 ∧ CompletesMarker 0x12 0xFF 0xA5 := by
  unfold CompletesMarker; decide

theorem witness_BothMarkersOpenAHeader : (scanAt 0xFF 0x00).phase = .scanning := rfl

theorem witness_EarlyHeaderByteIsStored :
    (headerAt 0 ⟨0, 0, 0, 0, 0⟩).phase = .readingHeader ∧ (headerAt 0 ⟨0, 0, 0, 0, 0⟩).cnt.toNat < 4 ∧
    (headerAt 3 ⟨0, 0, 0, 0, 0⟩).cnt.toNat < 4 := by decide

/-- V23, V27. -/
theorem witness_WrongTripleIsDiscarded :
    (headerAt 4 ⟨0x02, 0x10, 0x0F, 0x02, 0⟩).phase = .readingHeader ∧
    (headerAt 4 ⟨0x02, 0x10, 0x0F, 0x02, 0⟩).cnt = 4 ∧
    ¬ IsStatusTriple Config.testK 0x02 0x10 0x0F ∧ ¬ IsStatusTriple Config.testK 0x03 0x0F 0x10 := by
  unfold IsStatusTriple; decide

/-- V26, V26b. -/
theorem witness_OversizedBodyIsDiscarded :
    (headerAt 4 ⟨0x02, 0x0F, 0x10, 0x02, 0⟩).phase = .readingHeader ∧
    (headerAt 4 ⟨0x02, 0x0F, 0x10, 0x02, 0⟩).cnt = 4 ∧
    IsStatusTriple (headerAt 4 ⟨0x02, 0x0F, 0x10, 0x02, 0⟩).cfg 0x02 0x0F 0x10 ∧
    128 < (0x81 : Byte).toNat ∧ 128 < (0xFF : Byte).toNat := by
  unfold IsStatusTriple; decide

/-- V25 and the shortest body. -/
theorem witness_AcceptedHeaderStartsTheBody :
    (headerAt 4 ⟨0x02, 0x0F, 0x10, 0x02, 0⟩).phase = .readingHeader ∧
    (headerAt 4 ⟨0x02, 0x0F, 0x10, 0x02, 0⟩).cnt = 4 ∧
    IsStatusTriple (headerAt 4 ⟨0x02, 0x0F, 0x10, 0x02, 0⟩).cfg 0x02 0x0F 0x10 ∧
    1 ≤ (0x01 : Byte).toNat ∧ (0x01 : Byte).toNat ≤ 128 ∧ 1 ≤ (0x80 : Byte).toNat ∧ (0x80 : Byte).toNat ≤ 128 := by
  unfold IsStatusTriple; decide

/-- V28. -/
theorem witness_EmptyBodyIsHandedOutAtOnce :
    (headerAt 4 ⟨0x02, 0x0F, 0x10, 0x02, 0⟩).phase = .readingHeader ∧
    (headerAt 4 ⟨0x02, 0x0F, 0x10, 0x02, 0⟩).cnt = 4 ∧
    IsStatusTriple (headerAt 4 ⟨0x02, 0x0F, 0x10, 0x02, 0⟩).cfg 0x02 0x0F 0x10 := by
  unfold IsStatusTriple; decide

theorem witness_RxStopsOnlyOutsideItsBuffers :
    ((headerAt 5 ⟨0, 0, 0, 0, 0⟩).phase = .readingHeader ∧ 4 < (headerAt 5 ⟨0, 0, 0, 0, 0⟩).cnt.toNat) ∧
    ((headerAt 4 ⟨0, 0, 0, 0, 0⟩).phase = .readingHeader ∧ (headerAt 4 ⟨0, 0, 0, 0, 0⟩).cnt.toNat ≤ 4) ∧
    (let s := { bodyAt 0x02 0xFF [] with cnt := 128 }; s.phase = .readingBody ∧ 127 < s.cnt.toNat) ∧
    (let s := { bodyAt 0x02 0x80 [] with cnt := 127 }; s.phase = .readingBody ∧ s.cnt.toNat ≤ 127) ∧
    (scanAt 0 0).phase = .scanning := by decide

theorem witness_EarlyBodyByteIsStored :
    (let s := bodyAt 0x02 0x02 []; Inv s ∧ s.phase = .readingBody ∧ s.cnt.toNat + 1 < s.hdr.len.toNat) ∧
    (let s := bodyAt 0x02 0x1B (List.replicate 25 1);
      Inv s ∧ s.phase = .readingBody ∧ s.cnt.toNat + 1 < s.hdr.len.toNat) := by decide

/-- V29: 26 and 28 bytes; and one byte. -/
theorem witness_WrongStatusLengthIsRefused :
    (let s := bodyAt 0x02 0x1A (List.replicate 25 0x21);
      Inv s ∧ s.phase = .readingBody ∧ s.cnt.toNat + 1 = s.hdr.len.toNat ∧ s.hdr.len.toNat ≠ 27) ∧
    (let s := bodyAt 0x02 0x1C (List.replicate 27 0x21);
      Inv s ∧ s.phase = .readingBody ∧ s.cnt.toNat + 1 = s.hdr.len.toNat ∧ s.hdr.len.toNat ≠ 27) ∧
    (let s := bodyAt 0x02 0x01 [];
      Inv s ∧ s.phase = .readingBody ∧ s.cnt.toNat + 1 = s.hdr.len.toNat ∧ s.hdr.len.toNat ≠ 27) :=
  ⟨by decide, by decide, by decide⟩

/-- V34. -/
theorem witness_UnexpectedCommandIsRefused :
    let s := bodyAt 0x05 0x1B (bodyV20.take 26)
    (Inv s ∧ s.phase = .readingBody ∧ s.cnt.toNat = 26 ∧ s.hdr.len.toNat = 27) ∧ ¬ IsStatusCommand s.cfg s.hdr.cmd :=
  ⟨by decide, fun h => absurd (h 0x02 rfl) (by decide)⟩

/-- V20. -/
theorem witness_AcceptedStatusFrame :
    let s := bodyAt 0x02 0x1B (bodyV20.take 26)
    (Inv s ∧ s.phase = .readingBody ∧ s.cnt.toNat = 26 ∧ s.hdr.len.toNat = 27 ∧
      bodyV20 = (List.range 26).map s.body.read ++ [0x00]) ∧ IsStatusCommand s.cfg s.hdr.cmd :=
  ⟨by decide, fun _ h => Option.some.inj h⟩

theorem witness_AcceptedPayloadIsRetained :
    bodyV20.length = 27 ∧ IsStatusTriple State.reset.cfg 0x02 0x0F 0x10 ∧ IsStatusCommand State.reset.cfg 0x02 :=
  ⟨rfl, ⟨rfl, rfl, rfl⟩, fun _ h => Option.some.inj h⟩

theorem witness_RxEmitsExactlyOneEvFirst : ∃ t, exec (.rx 0x1B) (headerAt 4 ⟨0x02, 0x0F, 0x10, 0x02, 0⟩) = .next t :=
  ⟨_, rfl⟩

theorem witness_OnlyReceptionEmitsEv :
    isReception (.cmdf .pool true) = false ∧ ∃ t, exec (.cmdf .pool true) State.reset = .next t :=
  ⟨rfl, _, rfl⟩

theorem witness_RxStoresOnlyAtTheCount :
    (let s := scanAt 0xFF 0x00; Inv s ∧ s.phase ≠ .readingBody ∧ answers (exec (.rx 0xA5) s) = true) ∧
    (let s := bodyAt 0x02 0x1B [1, 2]; Inv s ∧ s.phase = .readingBody ∧ answers (exec (.rx 3) s) = true) := by decide

theorem witness_MarkerIsFoundAfterARejectedHeader :
    (headerAt 4 ⟨0x02, 0x10, 0x0F, 0x02, 0⟩).phase = .readingHeader ∧
    (headerAt 4 ⟨0x02, 0x10, 0x0F, 0x02, 0⟩).cnt = 4 ∧
    ¬ IsStatusTriple (headerAt 4 ⟨0x02, 0x10, 0x0F, 0x02, 0⟩).cfg 0x02 0x10 0x0F := by
  unfold IsStatusTriple; decide

/-- V50, V59 (guard on, Scanning), P3 (guard off, in the body). -/
theorem witness_BoundFeatureCommandIsSent :
    MaySend State.reset ∧ MaySend (guarded (scanAt 0xFF 0x00)) ∧ MaySend (bodyAt 0x02 0x1B [1]) ∧
    State.reset.cfg.featureAddr[featureNum .pool] = some 0x10 := by
  unfold MaySend; decide

/-- V54, V55. -/
theorem witness_UnboundFeatureCommandIsRefused :
    MaySend State.reset ∧ State.reset.cfg.featureAddr[featureNum .waterFeature] = none ∧
    State.reset.cfg.featureAddr[featureNum .reserved15] = none := by
  unfold MaySend; decide

/-- V56. -/
theorem witness_MidFrameSendIsRefused :
    (guarded (headerAt 1 ⟨0x02, 0, 0, 0, 0⟩)).cfg.txGuard = true ∧
    (guarded (headerAt 1 ⟨0x02, 0, 0, 0, 0⟩)).phase ≠ .scanning ∧
    (guarded (bodyAt 0x02 0x1B [1])).phase ≠ .scanning := by decide

theorem witness_RawAddressCommandIsSent : MaySend State.reset ∧ MaySend (guarded (scanAt 0xFF 0x00)) := by
  unfold MaySend; decide

theorem witness_CircuitFrameIsSentAsWritten :
    MaySend State.reset ∧ (Instr.circuit 0x60 0x20 true 0xBD).wellFormed = true ∧ 0x20 = State.reset.cfg.remoteAddr ∧
    encode (.circuit 0x60 0x20 true 0xBD) =
      .wireOut [0xFF, 0x00, 0xA5, 0x10, 0x60, 0x20, 0x86, 0x02, 0x01, 0xBD] := by
  unfold MaySend; decide

/-- V30. -/
theorem witness_EchoedCommandFrameIsRejected :
    State.reset.phase = .scanning ∧
    (presenting (.wireIn [0xFF, 0x00, 0xA5, 0x10, 0x10, 0x20, 0x86, 0x02, 0x01, 0x6D]) State.reset).port =
      .wireIn (circuitBytes Config.testK 0x10 true) :: [] := by decide

theorem witness_DiagRecordsTheOneCause :
    (∃ t, exec (.rx 0x1B) (headerAt 4 ⟨0x02, 0x10, 0x0F, 0x02, 0⟩) = .next t) ∧
    (isReception (.cmdf .waterFeature true) = false ∧ Instr.cmdf .waterFeature true ≠ .reset ∧
      ∃ t, exec (.cmdf .waterFeature true) State.reset = .next t) :=
  ⟨⟨_, rfl⟩, rfl, by decide, ⟨_, rfl⟩⟩

theorem witness_NoStepWritesTheConfiguration : ∃ t, step (presenting (.opw 0xE000) (scanAt 0xFF 0x00)) = .next t :=
  answers_iff (by decide)

theorem witness_UnreportedEntriesChangeOnlyByCommand :
    FeatureId.aux ∈ [FeatureId.unknown, .aux, .reserved10, .reserved11, .reserved12, .reserved13, .reserved14,
      .reserved15] ∧
    Instr.statusL .three 0x02 0x1B bodyV20 0xD5 ≠ .reset ∧
    (∀ on, Instr.statusL .three 0x02 0x1B bodyV20 0xD5 ≠ .cmdf .aux on) ∧
    ∃ t, exec (.statusL .three 0x02 0x1B bodyV20 0xD5) State.reset = .next t :=
  ⟨by decide, by decide, by decide, answers_iff (by decide)⟩

/-- A step that keeps the retained status, and one that writes it. -/
theorem witness_RetainedStatusChangesOnlyByAcceptance :
    (∃ t, exec (.rx 0x12) (scanAt 0 0) = .next t) ∧
    ∃ t, exec (.rx 0x00) (bodyAt 0x02 0x1B (bodyV20.take 26)) = .next t :=
  ⟨⟨_, rfl⟩, answers_iff (by decide)⟩

/-- A state in the middle of a body, with a whole further frame presented. -/
theorem witness_EveryStepKeepsTheInvariant :
    let s := presenting (.wireIn (statuslBytes 0x02 bodyV20)) (bodyAt 0x02 0x04 [1])
    Inv s ∧ ∃ t, step s = .next t :=
  ⟨by decide, answers_iff (by decide)⟩

/-- The step that starts a body of 128 bytes, and one that leaves it waiting. -/
theorem witness_NoStepIndexesOutsideItsBuffers :
    (let s := presenting (.opw 0x2080) (headerAt 4 ⟨0x02, 0x0F, 0x10, 0x02, 0⟩);
      Inv s ∧ (next? (step s)).map (·.phase) = some .readingBody) ∧
    (let s := presenting (.opw 0x2003) (bodyAt 0x02 0x1B [1, 2]);
      Inv s ∧ (next? (step s)).map (·.phase) = some .readingBody) := ⟨by decide, by decide⟩

theorem witness_EveryInstructionCompletes :
    Inv (scanAt 0xFF 0x00) ∧ Inv (headerAt 4 ⟨0x02, 0x0F, 0x10, 0x02, 0⟩) ∧ Inv (bodyAt 0x02 0x1B [1, 2]) :=
  ⟨by decide, by decide, by decide⟩

theorem witness_BurstEqualsBytesOneByOne : Inv (bodyAt 0x02 0x1B [1, 2]) := by decide

/-- P2: a further frame's marker inside a body that waits for more. -/
theorem witness_TruncatedBodyKeepsWaiting :
    let s := presenting (.wireIn [0xFF, 0x00, 0xA5]) (bodyAt 0x02 0x04 [])
    Inv s ∧ s.phase = .readingBody ∧ s.cnt.toNat + 3 < s.hdr.len.toNat ∧
      s.port = .wireIn [0xFF, 0x00, 0xA5] :: [] := by decide

/-- A cell beyond the count holds another byte. -/
theorem witness_StaleBodyIsUnobservable :
    let s := presenting (.opw 0x2003) (bodyAt 0x02 0x1B [1, 2])
    Inv s ∧ SameButStaleBody s { s with body := [(0, 1), (1, 2), (2, 0x77)] } ∧
      (∃ t, step s = .next t) ∧ s.body.read 2 ≠ 0x77 :=
  ⟨by decide,
    ⟨[(0, 1), (1, 2), (2, 0x77)], by decide, rfl, fun _ =>
      (by decide : ∀ a, a < 2 → Memory.read [(0, 1), (1, 2), (2, 0x77)] a = Memory.read [(0, 1), (1, 2)] a)⟩,
    answers_iff (by decide), by decide⟩

theorem witness_StatusFrameOfDialectLIsDecoded :
    Inv State.reset ∧ State.reset.phase = .scanning ∧ State.reset.cfg.dialect = .L ∧
    (State.reset.cfg.lStatusCmdOn = true → (0x02 : Byte) = 0x02) ∧ bodyV20.length = 27 := by decide

theorem witness_StatusFrameOfDialectEIsDecoded :
    let s := dialectE State.reset
    (Inv s ∧ s.phase = .scanning ∧ s.cfg.dialect = .E ∧ s.cfg.eBroadcastAddr = 0x0F ∧ 0x10 = s.cfg.eMainAddr ∧
      bodyV20.length = 27) ∧ ∀ k, s.cfg.eStatusCmd = some k → (0x05 : Byte) = k :=
  ⟨by decide, nofun⟩

/-- Dialect E with another broadcast address; another source under dialect E; V23a's type under dialect L. -/
theorem witness_StatusFrameForAnotherTripleIsDiscarded :
    let s := { State.reset with cfg := { Config.testK with dialect := .E, eBroadcastAddr := 0x1F } }
    s.phase = .scanning ∧
    encode (.statusE .two 0x10 0x05 0x01 [0x48] 0x77) =
      .wireIn (markerBytes .two ++ headerList ⟨0x14, 0x0F, 0x10, 0x05, 0x01⟩ ++ [0x48, 0x77]) ∧
    ¬ IsStatusTriple s.cfg 0x14 0x0F 0x10 ∧ ¬ IsStatusTriple (dialectE State.reset).cfg 0x14 0x0F 0x33 ∧
    ¬ IsStatusTriple State.reset.cfg 0x14 0x0F 0x10 ∧ holdsMarker [0x48, 0x77] = false := by
  unfold IsStatusTriple; decide

/-- V1's frame with a checksum byte, the empty body and the longest. -/
theorem witness_StatusFrameOfAnotherLengthIsRefused :
    let s := presenting (.wireIn [0xFF, 0x00, 0xA5, 0x02, 0x0F, 0x10, 0x02, 0x02, 0x48, 0x1E, 0x77]) State.reset
    (Inv s ∧ s.phase = .scanning ∧
      s.port = .wireIn (markerBytes .three ++ headerList ⟨0x02, 0x0F, 0x10, 0x02, 0x02⟩ ++ [0x48, 0x1E] ++ [0x77]) :: [] ∧
      [0x48, (0x1E : Byte)].length = (0x02 : Byte).toNat ∧ ([] : List Byte).length = (0x00 : Byte).toNat ∧
      (List.replicate 128 (0x21 : Byte)).length = (0x80 : Byte).toNat) ∧ IsStatusTriple s.cfg 0x02 0x0F 0x10 :=
  ⟨⟨by decide, rfl, rfl, rfl, rfl, by simp⟩, rfl, rfl, rfl⟩

/-- V23a and its mirror. -/
theorem witness_OtherDialectsHeaderIsRejected :
    (let s := headerAt 4 ⟨0x14, 0x0F, 0x10, 0x02, 0⟩;
      s.phase = .readingHeader ∧ s.cnt = 4 ∧ s.cfg.dialect = .L ∧ s.hdr.typ = 0x14) ∧
    (let s := dialectE (headerAt 4 ⟨0x02, 0x0F, 0x10, 0x02, 0⟩);
      s.phase = .readingHeader ∧ s.cnt = 4 ∧ s.cfg.dialect = .E ∧ s.hdr.typ = 0x02) := by decide

/-- P2's noise before V20's frame, and noise after it. -/
theorem witness_OneFrameAmongNoise :
    let h : Header := ⟨0x02, 0x0F, 0x10, 0x02, 0x1B⟩
    let s := presenting
      (.wireIn ([0x12, 0xA5, 0xFF, 0x00, 0x00, 0xA5] ++ ([0xFF, 0x00, 0xA5] ++ headerList h ++ bodyV20) ++ [0xD5, 0x13]))
      State.reset
    (Inv s ∧ s.phase = .scanning ∧ s.prev = 0 ∧ s.prev2 = 0 ∧
      holdsMarker [0x12, 0xA5, 0xFF, 0x00, 0x00, 0xA5] = false ∧ holdsMarker [0xD5, 0x13] = false ∧
      bodyV20.length = h.len.toNat ∧ bodyV20.length ≤ 128) ∧ IsStatusTriple s.cfg h.typ h.dst h.src :=
  ⟨by decide, rfl, rfl, rfl⟩

theorem witness_PollFeedsAFirstPart : Inv (bodyAt 0x02 0x1B [1, 2]) := by decide

end Sys2Proof.Tests
end

section
/-! The interpreter's guard in the vocabulary of the statements, and what an accepted payload retains
(41_status_interp.md R130 to R135). -/

namespace Sys2Proof.Claims

open Sys2Proof.Machine

/-! ### The guard -/

theorem tripleOk_iff (c : Config) (h : Header) : tripleOk c h = true ↔ IsStatusTriple c h.typ h.dst h.src := by
  simp only [tripleOk, IsStatusTriple, Bool.and_eq_true, beq_iff_eq]
  exact ⟨fun ⟨⟨ht, hs⟩, hd⟩ => ⟨ht, hd, hs⟩, fun ⟨ht, hd, hs⟩ => ⟨⟨ht, hs⟩, hd⟩⟩

theorem innerCmdOk_iff (c : Config) (h : Header) : innerCmdOk c h = true ↔ IsStatusCommand c h.cmd := by
  unfold innerCmdOk IsStatusCommand
  cases statusCmd c with
  | none => simp
  | some k => simp

theorem guardOk_iff (c : Config) (h : Header) :
    guardOk c h = true ↔ IsStatusTriple c h.typ h.dst h.src ∧ IsStatusCommand c h.cmd := by
  rw [guardOk, Bool.and_eq_true, tripleOk_iff, innerCmdOk_iff]

/-! ### Retention: the registry refresh and the pushes after it leave the retained status alone -/

@[simp] theorem acceptStatus_lastStatus (p : Payload) (s : State) : (acceptStatus p s).lastStatus = p := by
  rw [acceptStatus_eq]

@[simp] theorem acceptStatus_statusValid (p : Payload) (s : State) : (acceptStatus p s).statusValid = true := by
  rw [acceptStatus_eq]

/-- Settles O26: the triple and the command are the interpreter's guard, so 27 bytes under it are accepted, and
acceptance retains the payload built from exactly those bytes. -/
theorem acceptedPayloadIsRetained : Obligations.AcceptedPayloadIsRetained := by
  intro h bytes s hlen htriple hcmd
  have haccept : interpret h bytes s = acceptStatus ⟨bytes.toArray, hlen⟩ s :=
    interpret_of_guard_true hlen ((guardOk_iff s.cfg h).mpr ⟨htriple, hcmd⟩)
  rw [haccept]
  exact ⟨by simp [Vector.toList], acceptStatus_statusValid _ s⟩

end Sys2Proof.Claims
end

section
/-! What the transmit sequence puts out (42_cmd_framer.md R152). -/

namespace Sys2Proof.Claims

open Sys2Proof.Machine

/-- Settles O32: `emitTx_eq` gives the outputs of the byte loop by induction on the bytes; the two `DE` outputs stand
around them, one appended before the loop and one after it. -/
theorem transmitSequence : Obligations.TransmitSequence := by
  intro bytes s
  calc transmit bytes s
      = emit (.de false) { s with out := s.out ++ [.de true] ++ bytes.map .tx } := by rw [transmit, emitTx_eq]; rfl
    _ = { s with out := s.out ++ ([.de true] ++ bytes.map .tx ++ [.de false]) } := by simp [emit]

end Sys2Proof.Claims
end

section
/-! The `QUERY` word and its answer (30_encoding.md R70 to R72; 43_host_ops.md R171). -/

namespace Sys2Proof.Claims

open Sys2Proof.Machine

/-- The word `1000 ffff 00000000` of 43_host_ops.md R171, by the number in its `F` field. -/
def queryWord (n : Fin 16) : OpWord := 0x8000#16 ||| BitVec.ofNat 16 n.val <<< 8

/-- The rows of 30_encoding.md R70 are told apart by their masks: a `QUERY` word matches its own row and no other. -/
theorem selects_queryWord : ∀ n : Fin 16, ∀ r ∈ opwRows, r.selects (queryWord n) = decide (r = rowQuery) := by decide

theorem fieldF_queryWord : ∀ n : Fin 16, fieldF (queryWord n) = BitVec.ofNat 4 n.val := by decide

theorem decodeOpw_queryWord (n : Fin 16) :
    decodeOpw (queryWord n) = .ok (.query (featureOfNum (BitVec.ofNat 4 n.val))) := by
  have hidle : rowIdle.selects (queryWord n) = false := selects_queryWord n _ (by decide)
  have hrx : rowRx.selects (queryWord n) = false := selects_queryWord n _ (by decide)
  have hcmdf : rowCmdf.selects (queryWord n) = false := selects_queryWord n _ (by decide)
  have hcmda : rowCmda.selects (queryWord n) = false := selects_queryWord n _ (by decide)
  have hquery : rowQuery.selects (queryWord n) = true := selects_queryWord n _ (by decide)
  simp [decodeOpw, hidle, hrx, hcmdf, hcmda, hquery, fieldF_queryWord]

/-- `QUERY` reads one entry and writes nothing: the outputs of the step before are all that is replaced. -/
theorem execQuery_eq (f : FeatureId) (s : State) :
    execQuery f s = .next { s with out := [.queryResult s.reg[featureNum f]] } := rfl

/-- Settles O8: the word selects the `QUERY` row alone and its `F` field names `f`; the arm of `exec` reads the one
entry. -/
theorem queryAnswersTheEntry : Obligations.QueryAnswersTheEntry := by
  intro f s
  constructor
  · calc decodeOpw (queryWord (featureNum f))
        = .ok (.query (featureOfNum (featureField f))) := decodeOpw_queryWord (featureNum f)
      _ = .ok (.query f) := by rw [featureOfNum_featureField]
  · exact execQuery_eq f s

end Sys2Proof.Claims
end

section
/-! The refusal procedure (60_exceptions.md R186). -/

namespace Sys2Proof.Claims

open Sys2Proof.Machine

/-- Emitting appends one output and leaves every other field of the state. -/
theorem emit_eq (o : Output) (s : State) : emit o s = { s with out := s.out ++ [o] } := rfl

/-- Settles O40: the procedure is the write of `diag` followed by one emission, and `emit_eq` says all that an emission
does. -/
theorem refusalChangesOnlyDiag : Obligations.RefusalChangesOnlyDiag := by
  intro c s
  rw [raiseRefuse, emit_eq]

end Sys2Proof.Claims
end

section
/-! The decoder undoes the encoder and the encoder the decoder (30_encoding.md sections 1 and 2): the operation word by
its four fields, the wire frames by their bytes. -/

namespace Sys2Proof.Claims

open Sys2Proof.Machine

/-! ### The fields of an operation word -/

/-- `OPC = w[15:13]` of 30_encoding.md R70, the field the model reads only through the masks of the rows. -/
def fieldOpc (w : OpWord) : BitVec 3 := w.extractLsb' 13 3

theorem append_inj_iff {m n : Nat} {a b : BitVec m} {x y : BitVec n} : a ++ x = b ++ y ↔ a = b ∧ x = y := by
  refine ⟨fun h => ⟨?_, ?_⟩, fun ⟨ha, hx⟩ => ha ▸ hx ▸ rfl⟩
  · simpa only [BitVec.extractLsb'_append_eq_left] using congrArg (BitVec.extractLsb' n m) h
  · simpa only [BitVec.extractLsb'_append_eq_right] using congrArg (BitVec.extractLsb' 0 n) h

theorem fieldX_append (o : BitVec 3) (x : BitVec 13) : fieldX (o ++ x) = x := BitVec.extractLsb'_append_eq_right

theorem append_fieldX (w : OpWord) : fieldOpc w ++ fieldX w = w := BitVec.extractLsb'_append_extractLsb'

theorem fieldOpc_append (o : BitVec 3) (x : BitVec 13) : fieldOpc (o ++ x) = o := BitVec.extractLsb'_append_eq_left

/-- The thirteen bits below `OPC` are the other three fields. -/
theorem fieldX_eq (w : OpWord) : fieldX w = BitVec.ofBool (fieldS w) ++ (fieldF w ++ fieldD w) := by
  have hs : BitVec.ofBool (fieldS w) = w.extractLsb' 12 1 := by
    ext i hi
    obtain rfl : i = 0 := by omega
    simp [fieldS]
  have hfd : fieldF w ++ fieldD w = w.extractLsb' 0 12 :=
    BitVec.extractLsb'_append_extractLsb'_eq_extractLsb' rfl
  rw [hs, hfd]
  exact (BitVec.extractLsb'_append_extractLsb'_eq_extractLsb' (start₁ := 0) (len₁ := 12) rfl).symm

/-- A word is made of its four fields (30_encoding.md R70). -/
theorem mkOpw_fields (w : OpWord) : mkOpw (fieldOpc w) (fieldS w) (fieldF w) (fieldD w) = w := by
  rw [mkOpw, ← fieldX_eq, append_fieldX]

theorem mkOpw_inj_iff {o o' : BitVec 3} {s s' : Bool} {f f' : BitVec 4} {d d' : Byte} :
    mkOpw o s f d = mkOpw o' s' f' d' ↔ o = o' ∧ s = s' ∧ f = f' ∧ d = d' := by
  have hs : BitVec.ofBool s = BitVec.ofBool s' ↔ s = s' := by cases s <;> cases s' <;> decide
  rw [mkOpw, mkOpw, append_inj_iff, append_inj_iff, append_inj_iff, hs]

theorem fields_mkOpw (o : BitVec 3) (s : Bool) (f : BitVec 4) (d : Byte) :
    fieldOpc (mkOpw o s f d) = o ∧ fieldS (mkOpw o s f d) = s ∧ fieldF (mkOpw o s f d) = f ∧
      fieldD (mkOpw o s f d) = d := mkOpw_inj_iff.1 (mkOpw_fields _)

/-- A row whose value and mask are given field by field selects a word field by field (30_encoding.md R70). -/
theorem selects_mk_iff (vo mo : BitVec 3) (vs ms : Bool) (vf mf : BitVec 4) (vd md : Byte) (w : OpWord) :
    OpwRow.selects ⟨mkOpw vo vs vf vd, mkOpw mo ms mf md⟩ w = true ↔
      fieldOpc w &&& mo = vo ∧ (fieldS w && ms) = vs ∧ fieldF w &&& mf = vf ∧ fieldD w &&& md = vd := by
  have hand : w &&& mkOpw mo ms mf md =
      mkOpw (fieldOpc w &&& mo) (fieldS w && ms) (fieldF w &&& mf) (fieldD w &&& md) := by
    conv_lhs => rw [← mkOpw_fields w]
    have hlow : BitVec.ofBool (fieldS w) ++ (fieldF w ++ fieldD w) &&& BitVec.ofBool ms ++ (mf ++ md) =
        BitVec.ofBool (fieldS w && ms) ++ ((fieldF w &&& mf) ++ (fieldD w &&& md)) := by
      rw [BitVec.and_append, BitVec.and_append, BitVec.ofBool_and_ofBool]
    exact BitVec.and_append.trans (congrArg ((fieldOpc w &&& mo) ++ ·) hlow)
  rw [OpwRow.selects, beq_iff_eq, hand, mkOpw_inj_iff]

/-! ### Which words each row selects, by their fields (30_encoding.md R70) -/

theorem and_seven (x : BitVec 3) : x &&& 7#3 = x := BitVec.and_allOnes

theorem and_fifteen (x : BitVec 4) : x &&& 15#4 = x := BitVec.and_allOnes

theorem and_ff (x : Byte) : x &&& 255#8 = x := BitVec.and_allOnes

theorem selects_rowIdle_iff (w : OpWord) :
    rowIdle.selects w = true ↔ fieldOpc w = 0 ∧ fieldS w = false ∧ fieldF w = 0 ∧ fieldD w = 0 := by
  exact (selects_mk_iff 0 7 false true 0 15 0 255 w).trans (by simp [and_seven, and_fifteen, and_ff])

theorem selects_rowRx_iff (w : OpWord) :
    rowRx.selects w = true ↔ fieldOpc w = 1 ∧ fieldS w = false ∧ fieldF w = 0 := by
  exact (selects_mk_iff 1 7 false true 0 15 0 0 w).trans (by simp [and_seven, and_fifteen])

theorem selects_rowCmdf_iff (w : OpWord) : rowCmdf.selects w = true ↔ fieldOpc w = 2 ∧ fieldD w = 0 := by
  exact (selects_mk_iff 2 7 false false 0 0 0 255 w).trans (by simp [and_seven, and_ff])

theorem selects_rowCmda_iff (w : OpWord) : rowCmda.selects w = true ↔ fieldOpc w = 3 ∧ fieldF w = 0 := by
  exact (selects_mk_iff 3 7 false false 0 15 0 0 w).trans (by simp [and_seven, and_fifteen])

theorem selects_rowQuery_iff (w : OpWord) :
    rowQuery.selects w = true ↔ fieldOpc w = 4 ∧ fieldS w = false ∧ fieldD w = 0 := by
  exact (selects_mk_iff 4 7 false true 0 0 0 255 w).trans (by simp [and_seven, and_ff])

theorem selects_rowReset_iff (w : OpWord) :
    rowReset.selects w = true ↔ fieldOpc w = 7 ∧ fieldS w = false ∧ fieldF w = 0 ∧ fieldD w = 0 := by
  exact (selects_mk_iff 7 7 false true 0 15 0 255 w).trans (by simp [and_seven, and_fifteen, and_ff])

theorem selects_rowReservedOpc5_iff (w : OpWord) : rowReservedOpc5.selects w = true ↔ fieldOpc w = 5 := by
  exact (selects_mk_iff 5 7 false false 0 0 0 0 w).trans (by simp [and_seven])

theorem selects_rowReservedOpc6_iff (w : OpWord) : rowReservedOpc6.selects w = true ↔ fieldOpc w = 6 := by
  exact (selects_mk_iff 6 7 false false 0 0 0 0 w).trans (by simp [and_seven])

/-! ### Operation words -/

/-- A word that an instruction of the `OPW` table encodes to decodes to it. -/
theorem decodeOpw_of_encode {i : Instr} {w : OpWord} (h : encode i = .opw w) : decodeOpw w = .ok i := by
  cases i <;> cases h <;>
    simp [decodeOpw, selects_rowIdle_iff, selects_rowRx_iff, selects_rowCmdf_iff, selects_rowCmda_iff,
      selects_rowQuery_iff, selects_rowReset_iff, selects_rowReservedOpc5_iff, selects_rowReservedOpc6_iff,
      fields_mkOpw, fieldOpc_append, fieldX_append]

theorem mkOpw_eq {w : OpWord} {o : BitVec 3} {s : Bool} {f : BitVec 4} {d : Byte} (ho : fieldOpc w = o)
    (hs : fieldS w = s) (hf : fieldF w = f) (hd : fieldD w = d) : mkOpw o s f d = w := by
  rw [← ho, ← hs, ← hf, ← hd, mkOpw_fields]

theorem append_fieldX_of_opc {w : OpWord} {o : BitVec 3} (ho : fieldOpc w = o) : o ++ fieldX w = w :=
  ho ▸ append_fieldX w

/-- The row that selects a word fixes every bit of it but the operands, which the instruction keeps. -/
theorem encode_of_decodeOpw {w : OpWord} {i : Instr} (h : decodeOpw w = .ok i) : encode i = .opw w := by
  unfold decodeOpw at h
  split_ifs at h with hidle hrx hcmdf hcmda hquery hreset hopc5 hopc6 <;> cases h <;> refine congrArg Presented.opw ?_
  case _ =>
    obtain ⟨ho, hs, hf, hd⟩ := (selects_rowIdle_iff w).1 hidle
    exact mkOpw_eq ho hs hf hd
  case _ =>
    obtain ⟨ho, hs, hf⟩ := (selects_rowRx_iff w).1 hrx
    exact mkOpw_eq ho hs hf rfl
  case _ =>
    obtain ⟨ho, hd⟩ := (selects_rowCmdf_iff w).1 hcmdf
    exact mkOpw_eq ho rfl (featureField_featureOfNum _).symm hd
  case _ =>
    obtain ⟨ho, hf⟩ := (selects_rowCmda_iff w).1 hcmda
    exact mkOpw_eq ho rfl hf rfl
  case _ =>
    obtain ⟨ho, hs, hd⟩ := (selects_rowQuery_iff w).1 hquery
    exact mkOpw_eq ho hs (featureField_featureOfNum _).symm hd
  case _ =>
    obtain ⟨ho, hs, hf, hd⟩ := (selects_rowReset_iff w).1 hreset
    exact mkOpw_eq ho hs hf hd
  case _ => exact append_fieldX_of_opc ((selects_rowReservedOpc5_iff w).1 hopc5)
  case _ => exact append_fieldX_of_opc ((selects_rowReservedOpc6_iff w).1 hopc6)

/-! ### Wire frames -/

theorem splitBody_append {len : Byte} {body : List Byte} (h : body.length = len.toNat) (chk : Byte) :
    splitBody len (body ++ [chk]) = some (body, chk) := by
  simp [splitBody, h]

theorem eq_append_of_splitBody {len chk : Byte} {tail body : List Byte} (h : splitBody len tail = some (body, chk)) :
    tail = body ++ [chk] := by
  unfold splitBody at h
  split at h
  · cases h
  · next hlast =>
    split at h
    · cases h; exact (List.dropLast_append_getLast? _ hlast).symm
    · cases h

theorem decodeWireIn_marker (m : Marker) (rest : List Byte) :
    decodeWireIn (markerBytes m ++ rest) = decodeAfterMarker m rest := by
  cases m <;> simp [decodeWireIn, markerBytes]

/-- A burst that decodes begins with a marker (30_encoding.md R78). -/
theorem eq_marker_append_of_decodeWireIn {bytes : List Byte} {i : Instr} (h : decodeWireIn bytes = .ok i) :
    ∃ m rest, bytes = markerBytes m ++ rest ∧ decodeAfterMarker m rest = .ok i := by
  unfold decodeWireIn at h
  split at h
  · next a b rest =>
    split_ifs at h with h2 h3
    · obtain ⟨rfl, rfl⟩ := h2
      exact ⟨.two, rest, rfl, h⟩
    · obtain ⟨rfl, rfl⟩ := h3
      split at h
      · split_ifs at h with hc
        subst hc
        exact ⟨.three, _, rfl, h⟩
      · cases h
  · cases h

/-- What follows the marker is all in the instruction: header bytes that the row does not fix, body and checksum. -/
theorem encode_of_decodeAfterMarker {m : Marker} {rest : List Byte} {i : Instr}
    (h : decodeAfterMarker m rest = .ok i) : encode i = .wireIn (markerBytes m ++ rest) := by
  unfold decodeAfterMarker at h
  split at h
  · cases m <;> cases h <;> rfl
  · split_ifs at h with hL hE
    · obtain ⟨rfl, rfl, rfl⟩ := hL
      split at h <;> cases h
      next hsplit => simp [encode, eq_append_of_splitBody hsplit]
    · obtain ⟨rfl, rfl⟩ := hE
      split at h <;> cases h
      next hsplit => simp [encode, eq_append_of_splitBody hsplit]
  · cases h

theorem encode_of_decodeWireIn {bytes : List Byte} {i : Instr} (h : decodeWireIn bytes = .ok i) :
    encode i = .wireIn bytes := by
  obtain ⟨m, rest, rfl, hrest⟩ := eq_marker_append_of_decodeWireIn h
  exact encode_of_decodeAfterMarker hrest

theorem stateByte_getElem_zero : ∀ st : Byte, st &&& 0xFE = 0x00 → stateByte st[0] = st := by decide

theorem encode_of_decodeWireOut {bytes : List Byte} {i : Instr} (h : decodeWireOut bytes = .ok i) :
    encode i = .wireOut bytes := by
  unfold decodeWireOut at h
  split at h
  · split_ifs at h with hfix
    obtain ⟨rfl, rfl, rfl, rfl, rfl, rfl, hst⟩ := hfix
    cases h
    simp [encode, circuitFront, stateByte_getElem_zero _ hst]
  · cases h

/-- A boolean state as a byte has the seven bits above it clear and itself at bit 0 (30_encoding.md R71). -/
theorem stateByte_bits (on : Bool) : stateByte on &&& 254#8 = 0#8 ∧ (stateByte on)[0] = on := by
  cases on <;> decide

theorem decodeWireOut_circuit (dest remote : Byte) (on : Bool) (chk : Byte) :
    decodeWireOut (circuitFront dest remote on ++ [chk]) = .ok (.circuit dest remote on chk) := by
  simp [decodeWireOut, circuitFront, stateByte_bits]

/-! ### The round trip -/

/-- Settles O5, row by row: an operation word is read back through its four fields, a frame through its marker and the
split of its tail at the last byte. -/
theorem decodeOfEncodeIsTheInstruction : Obligations.DecodeOfEncodeIsTheInstruction := by
  intro i hwf
  cases i with
  | sof2 => exact decodeWireIn_marker .two []
  | sof3 => exact decodeWireIn_marker .three []
  | statusL m cmd len body chk =>
    have hlen : body.length = len.toNat := by simpa [Instr.wellFormed] using hwf
    have h := decodeWireIn_marker m ([0x02, 0x0F, 0x10, cmd, len] ++ (body ++ [chk]))
    simpa [decode, encode, decodeAfterMarker, splitBody_append hlen chk] using h
  | statusE m main cmd len body chk =>
    have hlen : body.length = len.toNat := by simpa [Instr.wellFormed] using hwf
    have h := decodeWireIn_marker m ([0x14, 0x0F, main, cmd, len] ++ (body ++ [chk]))
    simpa [decode, encode, decodeAfterMarker, splitBody_append hlen chk] using h
  | circuit dest remote on chk => exact decodeWireOut_circuit dest remote on chk
  | _ => exact decodeOpw_of_encode rfl

/-- Settles O6: each of the three decoders answers an instruction only after fixing every byte or bit that the
instruction does not keep as an operand. -/
theorem encodeOfDecodeIsThePresentation : Obligations.EncodeOfDecodeIsThePresentation := by
  intro p i h
  cases p with
  | opw w => exact encode_of_decodeOpw h
  | wireIn bytes => exact encode_of_decodeWireIn h
  | wireOut bytes => exact encode_of_decodeWireOut h

/-- Settles O4: sixteen closed instances, which the decoder evaluates. -/
theorem sampleEncodingsDecode : Obligations.SampleEncodingsDecode := by
  unfold Obligations.SampleEncodingsDecode
  decide

end Sys2Proof.Claims
end

section
/-! What a step runs (00_scope.md R5): received bytes are fed whatever presents them, and an instruction that feeds none
does one of five things. -/

namespace Sys2Proof.Claims

open Sys2Proof.Machine

/-! ### Reception -/

@[simp] theorem feed_nil (s : State) : feed [] s = .next s := rfl

@[simp] theorem feed_singleton (b : Byte) (s : State) : feed [b] s = rxByte b s := by
  rw [feed]; cases rxByte b s <;> rfl

theorem exec_of_encode_wireIn {i : Instr} {bytes : List Byte} (h : encode i = .wireIn bytes) (s : State) :
    exec i s = feed bytes (begin s) := by
  cases i <;> cases h <;> rfl

/-- An instruction that feeds received bytes does nothing else (40_rx_sync.md R103; 30_encoding.md R84). -/
theorem exec_of_isReception {i : Instr} (h : isReception i = true) :
    ∃ bytes, ∀ s, exec i s = feed bytes (begin s) := by
  cases i with
  | rx b => exact ⟨[b], fun s => (feed_singleton b (begin s)).symm⟩
  | sof2 => exact ⟨_, exec_of_encode_wireIn rfl⟩
  | sof3 => exact ⟨_, exec_of_encode_wireIn rfl⟩
  | statusL m cmd len body chk => exact ⟨_, exec_of_encode_wireIn rfl⟩
  | statusE m main cmd len body chk => exact ⟨_, exec_of_encode_wireIn rfl⟩
  | _ => cases h

/-! ### The other instructions -/

/-- Everything an instruction can do that neither feeds received bytes nor is `RESET` (42_cmd_framer.md R154 to R158,
43_host_ops.md R170 to R172). -/
inductive OtherEffect (i : Instr) (s : State) : State → Prop
  | held : OtherEffect i s (begin s)
  | refused (c : Cause) : OtherEffect i s (raiseRefuse c (begin s))
  | answered (v : Bool) : OtherEffect i s (emit (.queryResult v) (begin s))
  | sent (fr : List Byte) : OtherEffect i s (transmit fr (begin s))
  | sentAndSet (f : FeatureId) (on : Bool) (fr : List Byte) (hi : i = .cmdf f on) :
      OtherEffect i s (emit (.featurePush f on) (regSet f on (transmit fr (begin s))))

theorem otherEffect_sendRaw (i : Instr) (dest : Byte) (on : Bool) (s : State) :
    OtherEffect i s (sendRaw dest on (begin s)) := by
  unfold sendRaw
  split
  · exact .refused _
  · exact .sent _

theorem execCmdf_effect (f : FeatureId) (on : Bool) (s : State) :
    ∃ t, execCmdf f on s = .next t ∧ OtherEffect (.cmdf f on) s t := by
  unfold execCmdf
  split
  · exact ⟨_, rfl, .refused _⟩
  · split
    · exact ⟨_, rfl, .refused _⟩
    · exact ⟨_, rfl, .sentAndSet f on _ rfl⟩

/-- A refusal, at the start of an operation (60_exceptions.md R186). -/
theorem raiseRefuse_begin (c : Cause) (s : State) :
    raiseRefuse c (begin s) = { s with diag := c, out := [.diag c] } := refusalChangesOnlyDiag c (begin s)

theorem exec_other (i : Instr) (s : State) (hi : isReception i = false) (hr : i ≠ .reset) :
    ∃ t, exec i s = .next t ∧ OtherEffect i s t := by
  cases i with
  | idle => exact ⟨_, rfl, .held⟩
  | cmdf f on => exact execCmdf_effect f on s
  | cmda a on => exact ⟨_, rfl, otherEffect_sendRaw _ a on s⟩
  | query f => exact ⟨_, rfl, .answered _⟩
  | reset => exact absurd rfl hr
  | reservedOpc5 x => exact ⟨_, rfl, .refused _⟩
  | reservedOpc6 x => exact ⟨_, rfl, .refused _⟩
  | circuit dest remote on chk => exact ⟨_, rfl, otherEffect_sendRaw _ dest on s⟩
  | _ => cases hi

/-- The transmit sequence as a change of the outputs alone (42_cmd_framer.md R152). -/
theorem transmit_eq (fr : List Byte) (s : State) : transmit fr s = { s with out := s.out ++ sendOutputs fr } :=
  transmitSequence fr s

theorem OtherEffect.frame {i : Instr} {s t : State} (h : OtherEffect i s t) :
    ∃ r d o, t = { s with reg := r, diag := d, out := o } ∧
      ∀ g : FeatureId, (∀ on, i ≠ .cmdf g on) → r[featureNum g] = s.reg[featureNum g] := by
  cases h with
  | held => exact ⟨_, _, _, rfl, fun _ _ => rfl⟩
  | refused c => exact ⟨_, _, _, rfl, fun _ _ => rfl⟩
  | answered v => exact ⟨_, _, _, rfl, fun _ _ => rfl⟩
  | sent fr => exact ⟨_, _, _, transmit_eq fr _, fun _ _ => rfl⟩
  | sentAndSet f on fr hi =>
    refine ⟨_, _, _, by rw [transmit_eq]; rfl, fun g hg => ?_⟩
    have hne : g ≠ f := fun e => hg on (e ▸ hi)
    exact regGet_regSet_ne hne on s

/-- Settles O12: all five effects leave the decoder, and the one that writes the registry is that of `CMDF`. -/
theorem otherOperationsLeaveTheDecoder : Obligations.OtherOperationsLeaveTheDecoder := by
  intro i s hi hr
  obtain ⟨t, ht, heffect⟩ := exec_other i s hi hr
  obtain ⟨r, d, o, rfl, hreg⟩ := heffect.frame
  exact ⟨r, d, o, ht, hreg⟩

/-! ### Which outputs the other instructions give -/

@[simp] theorem isEv_ev (e : DecodeEvent) : isEv (.ev e) = true := rfl
@[simp] theorem isEv_yield : isEv .yield = false := rfl
@[simp] theorem isEv_diag (c : Cause) : isEv (.diag c) = false := rfl
@[simp] theorem isEv_featurePush (f : FeatureId) (v : Bool) : isEv (.featurePush f v) = false := rfl
@[simp] theorem isEv_telemetryPush (ch : Channel) (v : Byte) : isEv (.telemetryPush ch v) = false := rfl
@[simp] theorem isEv_de (v : Bool) : isEv (.de v) = false := rfl
@[simp] theorem isEv_tx (b : Byte) : isEv (.tx b) = false := rfl
@[simp] theorem isEv_queryResult (v : Bool) : isEv (.queryResult v) = false := rfl

@[simp] theorem isDiag_ev (e : DecodeEvent) : isDiag (.ev e) = false := rfl
@[simp] theorem isDiag_yield : isDiag .yield = false := rfl
@[simp] theorem isDiag_diag (c : Cause) : isDiag (.diag c) = true := rfl
@[simp] theorem isDiag_featurePush (f : FeatureId) (v : Bool) : isDiag (.featurePush f v) = false := rfl
@[simp] theorem isDiag_telemetryPush (ch : Channel) (v : Byte) : isDiag (.telemetryPush ch v) = false := rfl
@[simp] theorem isDiag_de (v : Bool) : isDiag (.de v) = false := rfl
@[simp] theorem isDiag_tx (b : Byte) : isDiag (.tx b) = false := rfl
@[simp] theorem isDiag_queryResult (v : Bool) : isDiag (.queryResult v) = false := rfl

theorem isEv_of_mem_sendOutputs {fr : List Byte} {o : Output} (h : o ∈ sendOutputs fr) : isEv o = false := by
  simp only [sendOutputs, List.mem_append, List.mem_singleton, List.mem_map] at h
  obtain (rfl | ⟨b, -, rfl⟩) | rfl := h <;> rfl

theorem filter_isDiag_sendOutputs (fr : List Byte) : (sendOutputs fr).filter isDiag = [] := by
  simp [sendOutputs, List.filter_map]

theorem OtherEffect.isEv_of_mem_out {i : Instr} {s t : State} (h : OtherEffect i s t) {o : Output} (ho : o ∈ t.out) :
    isEv o = false := by
  cases h with
  | held => cases ho
  | refused c => simp_all
  | answered v => simp_all
  | sent fr => exact isEv_of_mem_sendOutputs (by simpa [transmit_eq] using ho)
  | sentAndSet f on fr hi =>
    obtain ho | rfl : o ∈ sendOutputs fr ∨ o = .featurePush f on := by simpa [transmit_eq] using ho
    · exact isEv_of_mem_sendOutputs ho
    · rfl

/-- Settles O28: `RESET` outputs nothing, and none of the five effects of the others holds an `Ev`. -/
theorem onlyReceptionEmitsEv : Obligations.OnlyReceptionEmitsEv := by
  intro i s t hi h o ho
  by_cases hr : i = .reset
  · subst hr; cases h; cases ho
  · obtain ⟨t', ht', heffect⟩ := exec_other i s hi hr
    cases ht'.symm.trans h
    exact heffect.isEv_of_mem_out ho

/-- One cause at most was raised: none, and `diag` stayed, or the one that `diag` now holds (60_exceptions.md R187). -/
def RecordsCause (before after : Cause) (outs : List Output) : Prop :=
  (after = before ∧ outs.filter isDiag = []) ∨ outs.filter isDiag = [.diag after]

theorem OtherEffect.recordsCause {i : Instr} {s t : State} (h : OtherEffect i s t) :
    RecordsCause s.diag t.diag t.out := by
  cases h with
  | held => exact .inl ⟨rfl, rfl⟩
  | refused c => exact .inr rfl
  | answered v => exact .inl ⟨rfl, rfl⟩
  | sent fr => exact .inl ⟨by simp [transmit_eq], by simp [transmit_eq, filter_isDiag_sendOutputs]⟩
  | sentAndSet f on fr hi => exact .inl ⟨by simp [transmit_eq], by simp [transmit_eq, filter_isDiag_sendOutputs]⟩

/-! ### The step -/

theorem step_cons {s : State} {p : Presented} {rest : List Presented} (h : s.port = p :: rest) :
    step s = runPresented p { s with port := rest } := by
  simp only [step, h]

theorem runPresented_of_decode {p : Presented} {i : Instr} (h : decode p = .ok i) (s : State) :
    runPresented p s = exec i s := by
  simp only [runPresented, h]

/-- Received bytes are fed, whether they are a row or not (40_rx_sync.md R103; entries 5, 9). -/
theorem runPresented_wireIn (bytes : List Byte) (s : State) :
    runPresented (.wireIn bytes) s = feed bytes (begin s) := by
  cases h : decode (.wireIn bytes) with
  | ok i => rw [runPresented_of_decode h, exec_of_encode_wireIn (encode_of_decodeWireIn h)]
  | rejected r => simp only [runPresented, h]; rfl

/-- Whatever is presented runs as received bytes, as an instruction that feeds none, or not at all. A word of no row
runs as the reserved rows do (43_host_ops.md R172). -/
theorem runPresented_cases (p : Presented) :
    (∃ bytes, ∀ s, runPresented p s = feed bytes (begin s)) ∨
    (∃ i, isReception i = false ∧ ∀ s, runPresented p s = exec i s) ∨
    ∀ s, runPresented p s = .refused .frameNotEmitted := by
  cases h : decode p with
  | ok i =>
    cases hi : isReception i with
    | false => exact .inr (.inl ⟨i, hi, runPresented_of_decode h⟩)
    | true =>
      obtain ⟨bytes, hb⟩ := exec_of_isReception hi
      exact .inl ⟨bytes, fun s => (runPresented_of_decode h s).trans (hb s)⟩
  | rejected r =>
    cases p with
    | opw w => exact .inr (.inl ⟨.reservedOpc5 0, rfl, fun s => by simp only [runPresented, h]; rfl⟩)
    | wireIn bytes => exact .inl ⟨bytes, runPresented_wireIn bytes⟩
    | wireOut bytes => exact .inr (.inr fun s => by simp only [runPresented, h]; rfl)

/-- Settles O1: the step takes the first thing off the port and runs what it decodes to. -/
theorem stepRunsTheDecodedInstruction : Obligations.StepRunsTheDecodedInstruction := by
  intro s p rest i hport hdecode
  rw [step_cons hport, runPresented_of_decode hdecode]

/-- Settles O2: a step with an empty port only empties the outputs. -/
theorem stepWithNothingPresentedHoldsState : Obligations.StepWithNothingPresentedHoldsState := by
  intro s hport
  simp only [step, hport, begin]

theorem selects_eq_false {r : OpwRow} {w : OpWord} (h : w &&& r.mask ≠ r.value) : r.selects w = false := by
  simpa [OpwRow.selects] using h

/-- A word that none of the six defined rows selects is of a reserved row or of none, and refused either way. -/
theorem runPresented_undefined {w : OpWord} (hidle : rowIdle.selects w = false) (hrx : rowRx.selects w = false)
    (hcmdf : rowCmdf.selects w = false) (hcmda : rowCmda.selects w = false) (hquery : rowQuery.selects w = false)
    (hreset : rowReset.selects w = false) (s : State) :
    runPresented (.opw w) s = .next (raiseRefuse .illegalOp (begin s)) := by
  simp only [runPresented, decode, decodeOpw, hidle, hrx, hcmdf, hcmda, hquery, hreset, Bool.false_eq_true, if_false]
  cases rowReservedOpc5.selects w <;> cases rowReservedOpc6.selects w <;> rfl

/-- Settles O3: the six premises are the six rows' masks and values. -/
theorem everyUndefinedWordIsRefused : Obligations.EveryUndefinedWordIsRefused := by
  intro s w rest hport hidle hrx hcmdf hcmda hquery hreset
  have hones : w &&& 0xFFFF = w := BitVec.and_allOnes
  have hidle' : rowIdle.selects w = false := selects_eq_false (hones.symm ▸ hidle)
  have hreset' : rowReset.selects w = false := selects_eq_false (hones.symm ▸ hreset)
  rw [step_cons hport, runPresented_undefined hidle' (selects_eq_false hrx) (selects_eq_false hcmdf)
    (selects_eq_false hcmda) (selects_eq_false hquery) hreset', raiseRefuse_begin]

end Sys2Proof.Claims
end

section
/-! `IDLE`, `RESET`, the reserved rows and the discard procedure (43_host_ops.md, 60_exceptions.md R185). -/

namespace Sys2Proof.Claims

open Sys2Proof.Machine

/-- Settles O7: `IDLE` only empties the outputs, as every operation does first. -/
theorem idleHasNoEffect : Obligations.IdleHasNoEffect := fun _ => rfl

/-- `RESET` writes the record of power-up over all but the body buffer and the port. -/
theorem execReset_eq (s : State) :
    execReset s = .next { State.resetWith s.cfg with body := s.body, port := s.port } := rfl

/-- Settles O10: what `RESET` writes is the record of power-up, by definition. -/
theorem resetAndPowerUpAgree : Obligations.ResetAndPowerUpAgree := execReset_eq

/-- Settles O9: the fields of the record of power-up. -/
theorem resetGivesTheResetRecord : Obligations.ResetGivesTheResetRecord := by
  intro s
  have hreg (f : FeatureId) : (Vector.replicate 16 false)[featureNum f] = false := by simp
  have hstatus (k : Fin 27) : (Vector.replicate 27 (0 : Byte))[k] = 0 := by simp
  exact ⟨_, execReset_eq s, rfl, rfl, rfl, rfl, rfl, hreg, hstatus, rfl, rfl, rfl, rfl, rfl, rfl⟩

/-- Settles O11: both rows are the refusal procedure with `ILLEGAL_OP`. -/
theorem reservedRowsAreRefused : Obligations.ReservedRowsAreRefused := by
  intro _ s
  have hrefuse := raiseRefuse_begin .illegalOp s
  exact ⟨congrArg Host.Outcome.next hrefuse, congrArg Host.Outcome.next hrefuse⟩

/-- The discard procedure as one change of the record (60_exceptions.md R185). -/
theorem raiseDiscard_eq (c : Cause) (s : State) : raiseDiscard c s = { s with
    phase := .scanning, cnt := 0, prev := 0, prev2 := 0, diag := c
    out := s.out ++ [.ev .frameDiscarded, .diag c] } := by
  simp [raiseDiscard, enterScanning, emit_eq]

/-- Settles O41, an equation about the procedure that later proofs cite. -/
theorem discardReturnsToScanning : Obligations.DiscardReturnsToScanning := raiseDiscard_eq

end Sys2Proof.Claims
end

section
/-! The command framer (42_cmd_framer.md): the frame's bytes, and what each send does when the mid-frame guard fires and
when it does not. -/

namespace Sys2Proof.Claims

open Sys2Proof.Machine

/-! ### The frame -/

theorem sum8_toNat (bs : List Byte) : (sum8 bs).toNat = (bs.map BitVec.toNat).sum % 256 := by
  induction bs with
  | nil => rfl
  | cons b bs ih => simp [sum8, ih, BitVec.toNat_add]

/-- The frame is the `CIRCUIT` row with `REMOTE_ADDR` as its source and the sum of the nine bytes before as its last
(30_encoding.md R77). -/
theorem cmdFrame_eq (c : Config) (dest : Byte) (on : Bool) :
    cmdFrame c dest on = circuitFront dest c.remoteAddr on ++ [sum8 (circuitFront dest c.remoteAddr on)] := rfl

/-- Settles O31: `sum8` is the sum of the values modulo 256. -/
theorem commandFrameLayout : Obligations.CommandFrameLayout := by
  intro c dest on
  refine ⟨_, cmdFrame_eq c dest on, ?_⟩
  rw [cmdFrame_eq, sum8_toNat]
  rfl

/-- The fixed bytes `FF 00 A5 10 86 02` add up to `3C` (42_cmd_framer.md R153). -/
theorem sum8_circuitFront (dest remote : Byte) (on : Bool) :
    sum8 (circuitFront dest remote on) = 0x3C + dest + remote + stateByte on := by
  simp only [circuitFront, sum8]
  bv_omega

theorem cmdFrame_eq_circuitBytes (c : Config) (dest : Byte) (on : Bool) :
    cmdFrame c dest on = circuitBytes c dest on := by
  rw [cmdFrame_eq, sum8_circuitFront]
  rfl

/-- Settles O33, from the checksum formula, in which `s` is the last summand. -/
theorem checksumArithmetic : Obligations.ChecksumArithmetic := by
  intro c dest
  refine ⟨cmdFrame_eq_circuitBytes c dest, rfl, ?_⟩
  rw [cmdFrame_eq_circuitBytes, cmdFrame_eq_circuitBytes]
  simp [circuitBytes]

/-! ### The mid-frame guard -/

theorem midFrame_of_maySend {s : State} (h : MaySend s) : midFrame s = false := by
  obtain hg | hp := h
  · simp [midFrame, hg]
  · simp [midFrame, hp]

theorem midFrame_of_guard {s : State} (hg : s.cfg.txGuard = true) (hp : s.phase ≠ .scanning) : midFrame s = true := by
  simp [midFrame, hg, hp]

theorem midFrame_begin (s : State) : midFrame (begin s) = midFrame s := rfl

theorem sendRaw_of_midFrame {s : State} (h : midFrame s = true) (dest : Byte) (on : Bool) :
    sendRaw dest on (begin s) = { s with diag := .cmdMidframe, out := [.diag .cmdMidframe] } := by
  rw [sendRaw, midFrame_begin, if_pos h, raiseRefuse_begin]

theorem sendRaw_of_maySend {s : State} (h : MaySend s) (dest : Byte) (on : Bool) :
    sendRaw dest on (begin s) = { s with out := sendOutputs (circuitBytes s.cfg dest on) } := by
  rw [sendRaw, midFrame_begin, midFrame_of_maySend h, if_neg Bool.false_ne_true, cmdFrame_eq_circuitBytes, transmit_eq]
  rfl

/-! ### The sends -/

/-- Settles O36: the guard is the first test of all three sends. -/
theorem midFrameSendIsRefused : Obligations.MidFrameSendIsRefused := by
  intro s hg hp f a r k on
  have hmid : midFrame s = true := midFrame_of_guard hg hp
  have hraw := sendRaw_of_midFrame hmid a on
  refine ⟨?_, congrArg Host.Outcome.next hraw, congrArg Host.Outcome.next hraw⟩
  rw [exec, execCmdf, if_pos hmid, raiseRefuse_begin]

/-- Settles O37: with the guard silent the send is the transmit sequence alone. -/
theorem rawAddressCommandIsSent : Obligations.RawAddressCommandIsSent :=
  fun a on _ h => congrArg Host.Outcome.next (sendRaw_of_maySend h a on)

/-- Settles O38: with `REMOTE_ADDR` as its source, a frame with a right sum is the one the framer builds. -/
theorem circuitFrameIsSentAsWritten : Obligations.CircuitFrameIsSentAsWritten := by
  intro dest remote on k bytes s h hwf hremote hbytes
  have hk : k = sum8 (circuitFront dest remote on) := by simpa [Instr.wellFormed] using hwf
  have hframe : bytes = circuitBytes s.cfg dest on := by
    subst hk hremote
    cases hbytes
    rw [← cmdFrame_eq, cmdFrame_eq_circuitBytes]
  rw [hframe]
  exact congrArg Host.Outcome.next (sendRaw_of_maySend h dest on)

/-- Settles O34: neither the transmission nor the push touches the registry, whose one write is at `f`. -/
theorem boundFeatureCommandIsSent : Obligations.BoundFeatureCommandIsSent := by
  intro f on dest s h hbound
  refine ⟨s.reg.set (featureNum f) on, ?_, regGet_regSet_same f on s, fun g hg => regGet_regSet_ne hg on s⟩
  have hbound' : featureAddr s.cfg f = some dest := hbound
  simp only [exec, execCmdf, midFrame_of_maySend h, hbound', cmdFrame_eq_circuitBytes, transmit_eq]
  rfl

/-- Settles O35: with the guard silent the missing binding decides. -/
theorem unboundFeatureCommandIsRefused : Obligations.UnboundFeatureCommandIsRefused := by
  intro f on s h hunbound
  have hunbound' : featureAddr s.cfg f = none := hunbound
  simp only [exec, execCmdf, midFrame_of_maySend h, hunbound', raiseRefuse_begin]
  rfl

end Sys2Proof.Claims
end

section
/-! The state invariant (10_state.md R34): it holds at power-up, every step keeps it, and under it no step faults
(20_memory.md R56). -/

namespace Sys2Proof.Claims

open Sys2Proof.Machine

/-! ### The invariant, phase by phase -/

theorem inv_of_scanning {s : State} (hp : s.phase = .scanning) (hcnt : s.cnt = 0) (hstatus : statusInv s)
    (hwf : s.body.wf = true) : Inv s :=
  ⟨fun _ => hcnt, by simp [readingHeaderInv, hp], by simp [readingBodyInv, hp], hstatus, hwf⟩

theorem inv_of_readingHeader {s : State} (hp : s.phase = .readingHeader)
    (hhdr : s.cnt.toNat ≤ 4 ∧ s.prev = 0 ∧ s.prev2 = 0) (hstatus : statusInv s) (hwf : s.body.wf = true) : Inv s :=
  ⟨by simp [scanningInv, hp], fun _ => hhdr, by simp [readingBodyInv, hp], hstatus, hwf⟩

/-- The header a body belongs to carries the configured triple (40_rx_sync.md R105). -/
theorem inv_of_readingBody {s : State} (hp : s.phase = .readingBody) (hcnt : s.cnt.toNat < s.hdr.len.toNat)
    (hlen : s.hdr.len.toNat ≤ 128) (htriple : tripleOk s.cfg s.hdr = true) (hprev : s.prev = 0) (hprev2 : s.prev2 = 0)
    (hstatus : statusInv s) (hwf : s.body.wf = true) : Inv s := by
  obtain ⟨htyp, hdst, hsrc⟩ := (tripleOk_iff s.cfg s.hdr).1 htriple
  exact ⟨by simp [scanningInv, hp], by simp [readingHeaderInv, hp],
    fun _ => ⟨by omega, hlen, hcnt, htyp, hdst, hsrc, hprev, hprev2⟩, hstatus, hwf⟩

theorem body_wf_of_inv {s : State} : Inv s → s.body.wf = true := fun ⟨_, _, _, _, hwf⟩ => hwf

theorem readingBodyInv_of_inv {s : State} : Inv s → readingBodyInv s := fun ⟨_, _, hbody, _, _⟩ => hbody

/-- Settles O46: power-up leaves Scanning with nothing counted, a zero status and an empty buffer. -/
theorem invariantHoldsAtReset : Obligations.InvariantHoldsAtReset :=
  fun _ => inv_of_scanning rfl rfl (fun _ => rfl) Memory.wf_nil

/-! ### RX keeps it -/

/-- The interpreter writes the retained status only together with its valid bit (41_status_interp.md R135). -/
theorem interpret_statusInv {s : State} (hs : statusInv s) (h : Header) (b : List Byte) :
    statusInv (interpret h b s) := by
  obtain ⟨-, he⟩ | ⟨-, -, he⟩ | ⟨_, -, he⟩ := interpret_cases h b s <;> rw [he]
  · exact hs
  · exact hs
  · intro hvalid; simp at hvalid

theorem headerComplete_inv {s : State} (hprev : s.prev = 0) (hprev2 : s.prev2 = 0) (hstatus : statusInv s)
    (hwf : s.body.wf = true) : Inv (headerComplete s) := by
  obtain ⟨-, he⟩ | ⟨-, -, he⟩ | ⟨-, -, he⟩ | ⟨htriple, hpos, hlen, he⟩ := headerComplete_cases s <;> rw [he]
  · exact inv_of_scanning rfl rfl hstatus hwf
  · exact inv_of_scanning rfl rfl hstatus hwf
  · exact inv_of_scanning rfl rfl hstatus hwf
  · exact inv_of_readingBody rfl hpos hlen htriple hprev hprev2 hstatus hwf

/-- A completed body is handed out from Scanning, then interpreted (40_rx_sync.md R109). -/
theorem bodyComplete_eq (s : State) : bodyComplete s = interpret s.hdr (bodyBytes s s.hdr.len.toNat)
    (emit (.ev (.frameReady s.hdr (bodyBytes s s.hdr.len.toNat))) (enterScanning s)) := rfl

theorem bodyComplete_inv {s : State} (hstatus : statusInv s) (hwf : s.body.wf = true) : Inv (bodyComplete s) := by
  rw [bodyComplete_eq]
  refine inv_of_scanning ?_ ?_ (interpret_statusInv ?_ _ _) ?_
  · simp
  · simp
  · exact hstatus
  · simpa using hwf

theorem rxByte_inv {b : Byte} {s t : State} (hs : Inv s) (h : rxByte b s = .next t) : Inv t := by
  obtain ⟨hscan, hhead, hbody, hstatus, hwf⟩ := hs
  obtain ⟨hp, -, rfl⟩ | ⟨hp, -, rfl⟩ | ⟨hp, hlt, h', -, rfl⟩ | ⟨hp, -, rfl⟩ | ⟨hp, hlt, hlen, rfl⟩ |
    ⟨hp, hlt, -, rfl⟩ := rxByte_cases h
  · exact inv_of_readingHeader rfl ⟨Nat.zero_le _, rfl, rfl⟩ hstatus hwf
  · exact inv_of_scanning hp (hscan hp) hstatus hwf
  · obtain ⟨-, hprev, hprev2⟩ := hhead hp
    have hcnt : (s.cnt + 1).toNat ≤ 4 := by rw [cnt_succ_toNat (by omega)]; exact hlt
    exact inv_of_readingHeader hp ⟨hcnt, hprev, hprev2⟩ hstatus hwf
  · obtain ⟨-, hprev, hprev2⟩ := hhead hp
    exact headerComplete_inv hprev hprev2 hstatus hwf
  · obtain ⟨-, hmax, -, htyp, hdst, hsrc, hprev, hprev2⟩ := hbody hp
    have hcnt : (s.cnt + 1).toNat < s.hdr.len.toNat := by rw [cnt_succ_toNat (by omega)]; exact hlen
    exact inv_of_readingBody hp hcnt hmax ((tripleOk_iff _ _).2 ⟨htyp, hdst, hsrc⟩) hprev hprev2 hstatus
      (Memory.wf_write hwf hlt b)
  · exact bodyComplete_inv hstatus (Memory.wf_write hwf hlt b)

/-! ### RX answers under it -/

theorem rxByte_answers_of_readingHeader {s : State} (hp : s.phase = .readingHeader) (hcnt : s.cnt.toNat ≤ 4)
    (b : Byte) : ∃ t, rxByte b s = .next t := by
  rw [rxByte_readingHeader hp]
  by_cases h4 : s.cnt.toNat < 4
  · obtain ⟨h', hput⟩ := Header.put_isSome hcnt s.hdr b
    exact ⟨_, rxHeader_early h4 hput⟩
  · exact ⟨_, rxHeader_fifth (BitVec.eq_of_toNat_eq (show s.cnt.toNat = 4 by omega)) b⟩

theorem rxByte_answers_of_readingBody {s : State} (hp : s.phase = .readingBody) (hcnt : s.cnt.toNat < 128) (b : Byte) :
    ∃ t, rxByte b s = .next t := by
  rw [rxByte_readingBody hp]
  by_cases hlen : s.cnt.toNat + 1 < s.hdr.len.toNat
  · exact ⟨_, rxBody_early hcnt hlen b⟩
  · exact ⟨_, rxBody_last hcnt (by omega) b⟩

theorem exec_rx (b : Byte) (s : State) : exec (.rx b) s = rxByte b (begin s) := rfl

/-- Settles O21: the two faults are the two index checks, and the three answers are the phases within them. -/
theorem rxStopsOnlyOutsideItsBuffers : Obligations.RxStopsOnlyOutsideItsBuffers := by
  intro b s
  rw [exec_rx]
  refine ⟨fun hp hcnt => ?_, fun hp hcnt => ?_, fun hp => ?_, fun hp hcnt => ?_, fun hp hcnt => ?_⟩
  · rw [rxByte_readingHeader (s := begin s) hp, rxHeader_fault (s := begin s) hcnt]
  · rw [rxByte_readingBody (s := begin s) hp, rxBody_fault (s := begin s) hcnt]
  · exact ⟨_, rxByte_scanning (s := begin s) hp b⟩
  · exact rxByte_answers_of_readingHeader (s := begin s) hp hcnt b
  · exact rxByte_answers_of_readingBody (s := begin s) hp (Nat.lt_succ_of_le hcnt) b

theorem rxByte_answers {s : State} (hs : Inv s) (b : Byte) : ∃ t, rxByte b s = .next t := by
  obtain ⟨-, hhead, hbody, -, -⟩ := hs
  obtain hp | hp | hp := phase_cases s.phase
  · exact ⟨_, rxByte_scanning hp b⟩
  · exact rxByte_answers_of_readingHeader hp (hhead hp).1 b
  · obtain ⟨-, hmax, hcnt, -⟩ := hbody hp
    exact rxByte_answers_of_readingBody hp (by omega) b

theorem feed_answers {s : State} (hs : Inv s) (bytes : List Byte) : ∃ t, feed bytes s = .next t ∧ Inv t := by
  induction bytes generalizing s with
  | nil => exact ⟨s, rfl, hs⟩
  | cons b bs ih =>
    obtain ⟨u, hu⟩ := rxByte_answers hs b
    obtain ⟨t, ht, hinv⟩ := ih (rxByte_inv hs hu)
    exact ⟨t, by rw [feed, hu, andThen_next, ht], hinv⟩

/-! ### What reception leaves: the configuration and the port -/

theorem headerComplete_body (s : State) : (headerComplete s).body = s.body := by
  obtain ⟨-, he⟩ | ⟨-, -, he⟩ | ⟨-, -, he⟩ | ⟨-, -, -, he⟩ := headerComplete_cases s <;> simp [he]

theorem headerComplete_cfg_port (s : State) :
    (headerComplete s).cfg = s.cfg ∧ (headerComplete s).port = s.port := by
  obtain ⟨-, he⟩ | ⟨-, -, he⟩ | ⟨-, -, he⟩ | ⟨-, -, -, he⟩ := headerComplete_cases s <;> simp [he]

theorem rxByte_cfg_port {b : Byte} {s t : State} (h : rxByte b s = .next t) : t.cfg = s.cfg ∧ t.port = s.port := by
  obtain ⟨-, -, rfl⟩ | ⟨-, -, rfl⟩ | ⟨-, -, h', -, rfl⟩ | ⟨-, -, rfl⟩ | ⟨-, -, -, rfl⟩ | ⟨-, -, -, rfl⟩ :=
    rxByte_cases h
  · simp
  · simp
  · simp
  · exact headerComplete_cfg_port _
  · simp
  · simp [bodyComplete]

theorem feed_cfg_port {bytes : List Byte} {s t : State} (h : feed bytes s = .next t) :
    t.cfg = s.cfg ∧ t.port = s.port :=
  feed_induction (P := fun s t => t.cfg = s.cfg ∧ t.port = s.port) (fun _ => ⟨rfl, rfl⟩)
    (fun _ _ _ ⟨hc, hp⟩ ⟨hc', hp'⟩ => ⟨hc'.trans hc, hp'.trans hp⟩) (fun _ _ _ => rxByte_cfg_port) bytes s t h

/-! ### Instructions and steps -/

/-- An instruction that feeds no byte answers, with the configuration, the port and the invariant as before. -/
theorem exec_answers_of_not_isReception {i : Instr} (hi : isReception i = false) (s : State) :
    ∃ t, exec i s = .next t ∧ t.cfg = s.cfg ∧ t.port = s.port ∧ (Inv s → Inv t) := by
  by_cases hr : i = .reset
  · subst hr
    exact ⟨_, execReset_eq s, rfl, rfl, fun hs => inv_of_scanning rfl rfl (fun _ => rfl) (body_wf_of_inv (s := s) hs)⟩
  · obtain ⟨r, d, o, he, -⟩ := otherOperationsLeaveTheDecoder i s hi hr
    exact ⟨_, he, rfl, rfl, id⟩

/-- Settles O49: a burst answers by induction on its bytes; the other instructions answer from every state. -/
theorem everyInstructionCompletes : Obligations.EveryInstructionCompletes := by
  intro i s hs
  cases hi : isReception i with
  | false =>
    obtain ⟨t, he, hcfg, hport, hinv⟩ := exec_answers_of_not_isReception hi s
    exact ⟨t, he, hinv hs, hcfg, hport⟩
  | true =>
    obtain ⟨bytes, hfeed⟩ := exec_of_isReception hi
    obtain ⟨t, ht, hinv⟩ := feed_answers (s := begin s) hs bytes
    exact ⟨t, (hfeed s).trans ht, hinv, feed_cfg_port (s := begin s) ht⟩

/-- From a state of the invariant, what is presented is refused as no frame of the framer's, or answered within the
invariant. -/
theorem runPresented_answers {s : State} (hs : Inv s) (p : Presented) :
    runPresented p s = .refused .frameNotEmitted ∨ ∃ t, runPresented p s = .next t ∧ Inv t := by
  obtain ⟨bytes, hfeed⟩ | ⟨i, hi, hexec⟩ | hrefused := runPresented_cases p
  · exact .inr (hfeed s ▸ feed_answers (s := begin s) hs bytes)
  · obtain ⟨t, he, -, -, hinv⟩ := exec_answers_of_not_isReception hi s
    exact .inr ⟨t, (hexec s).trans he, hinv hs⟩
  · exact .inl (hrefused s)

theorem step_answers {s : State} (hs : Inv s) :
    step s = .refused .frameNotEmitted ∨ ∃ t, step s = .next t ∧ Inv t := by
  cases hport : s.port with
  | nil => exact .inr ⟨_, stepWithNothingPresentedHoldsState s hport, hs⟩
  | cons p rest => rw [step_cons hport]; exact runPresented_answers (s := { s with port := rest }) hs p

/-- Settles O47: what is presented is refused or answered within the invariant, which `rxByte_inv` shows byte by
byte. -/
theorem everyStepKeepsTheInvariant : Obligations.EveryStepKeepsTheInvariant := by
  intro s t hs h
  obtain hr | ⟨t', ht', hinv⟩ := step_answers hs
  · cases hr.symm.trans h
  · cases ht'.symm.trans h; exact hinv

/-- Settles O48: no step faults, and the bounds after it are the invariant's at ReadingBody. -/
theorem noStepIndexesOutsideItsBuffers : Obligations.NoStepIndexesOutsideItsBuffers := by
  intro s hs
  refine ⟨fun f hf => ?_, fun t ht hp => ?_⟩
  · obtain hr | ⟨t, ht, -⟩ := step_answers hs
    · cases hr.symm.trans hf
    · cases ht.symm.trans hf
  · obtain ⟨-, hmax, hcnt, -⟩ := readingBodyInv_of_inv (everyStepKeepsTheInvariant s t hs ht) hp
    exact ⟨hcnt, hmax⟩

theorem runPresented_cfg_port {p : Presented} {s t : State} (h : runPresented p s = .next t) :
    t.cfg = s.cfg ∧ t.port = s.port := by
  obtain ⟨bytes, hfeed⟩ | ⟨i, hi, hexec⟩ | hrefused := runPresented_cases p
  · exact feed_cfg_port (s := begin s) ((hfeed s).symm.trans h)
  · obtain ⟨t', he, hcfg, hport, -⟩ := exec_answers_of_not_isReception hi s
    cases (he.symm.trans (hexec s).symm).trans h
    exact ⟨hcfg, hport⟩
  · cases (hrefused s).symm.trans h

/-- Settles O43: the step takes the first thing off the port, and nothing it runs writes either field. -/
theorem noStepWritesTheConfiguration : Obligations.NoStepWritesTheConfiguration := by
  intro s t h
  cases hport : s.port with
  | nil => cases (stepWithNothingPresentedHoldsState s hport).symm.trans h; exact ⟨rfl, hport⟩
  | cons p rest => rw [step_cons hport] at h; exact runPresented_cfg_port h

end Sys2Proof.Claims
end

section
/-! The body buffer beyond the current frame is unobservable (10_state.md R25): replacing it commutes with every
operation, as long as the cells below `cnt` agree while a body is being read. -/

namespace Sys2Proof.Claims

open Sys2Proof.Machine

/-- The state with another body buffer. -/
def withBody (m : Memory) (s : State) : State := { s with body := m }

/-- The buffers agree on the bytes of the current frame. -/
def AgreesOnFrame (m : Memory) (s : State) : Prop :=
  s.phase = .readingBody → ∀ a, a < s.cnt.toNat → m.read a = s.body.read a

theorem sameButStaleBody_iff (s t : State) :
    SameButStaleBody s t ↔ ∃ m : Memory, m.wf = true ∧ t = withBody m s ∧ AgreesOnFrame m s := Iff.rfl

theorem agreesOnFrame_of_phase {m : Memory} {s : State} (hp : s.phase ≠ .readingBody) : AgreesOnFrame m s :=
  fun h => absurd h hp

variable (m : Memory)

/-! ### Operations that do not read the buffer -/

theorem refresh_withBody (s : State) (e : FeatureId × Bool) :
    refresh (withBody m s) e = withBody m (refresh s e) := by
  rw [refresh_eq, refresh_eq]; rfl

theorem emit_withBody (o : Output) (s : State) : emit o (withBody m s) = withBody m (emit o s) := rfl

theorem retain_withBody (p : Payload) (s : State) : retain p (withBody m s) = withBody m (retain p s) := rfl

theorem enterScanning_withBody (s : State) : enterScanning (withBody m s) = withBody m (enterScanning s) := rfl

theorem withBody_cfg (s : State) : (withBody m s).cfg = s.cfg := rfl

theorem withBody_hdr (s : State) : (withBody m s).hdr = s.hdr := rfl

theorem midFrame_withBody (s : State) : midFrame (withBody m s) = midFrame s := rfl

theorem foldl_refresh_withBody (l : List (FeatureId × Bool)) (s : State) :
    l.foldl refresh (withBody m s) = withBody m (l.foldl refresh s) :=
  List.foldl_hom (withBody m) (refresh_withBody m)

theorem acceptStatus_withBody (p : Payload) (s : State) :
    acceptStatus p (withBody m s) = withBody m (acceptStatus p s) := by
  simp only [acceptStatus, pushTelemetry, updateRegistry, retain_withBody, withBody_cfg, foldl_refresh_withBody,
    emit_withBody]

theorem interpret_withBody (h : Header) (b : List Byte) (s : State) :
    interpret h b (withBody m s) = withBody m (interpret h b s) := by
  obtain ⟨hb, he⟩ | ⟨hb, hg, he⟩ | ⟨hb, hg, he⟩ := interpret_cases h b s <;> rw [he]
  · exact interpret_of_length_ne _ hb
  · exact interpret_of_guard_false (s := withBody m s) hb hg
  · rw [interpret_of_guard_true (s := withBody m s) hb hg, acceptStatus_withBody]

theorem headerComplete_withBody (s : State) :
    headerComplete (withBody m s) = withBody m (headerComplete s) := by
  unfold headerComplete
  rw [withBody_cfg, withBody_hdr]
  split
  · rfl
  · split
    · rfl
    · split
      · rw [enterScanning_withBody, emit_withBody, interpret_withBody]
      · rfl

theorem headerComplete_agreesOnFrame (s : State) : AgreesOnFrame m (headerComplete s) := by
  obtain ⟨-, he⟩ | ⟨-, -, he⟩ | ⟨-, -, he⟩ | ⟨-, -, -, he⟩ := headerComplete_cases s <;> rw [he]
  · exact agreesOnFrame_of_phase (by simp)
  · exact agreesOnFrame_of_phase (by simp)
  · exact agreesOnFrame_of_phase (by simp)
  · intro _ a ha; simp at ha

theorem sendRaw_withBody (dest : Byte) (on : Bool) (s : State) :
    sendRaw dest on (withBody m s) = withBody m (sendRaw dest on s) := by
  unfold sendRaw
  rw [midFrame_withBody]
  split
  · rfl
  · rw [transmit_eq, transmit_eq]; rfl

theorem execCmdf_withBody {f : FeatureId} {on : Bool} {s t : State} (h : execCmdf f on s = .next t) :
    execCmdf f on (withBody m s) = .next (withBody m t) := by
  unfold execCmdf at h ⊢
  rw [midFrame_withBody, withBody_cfg]
  split at h
  · next hmid => cases h; rw [if_pos hmid]; rfl
  · next hmid =>
    rw [if_neg hmid]
    split at h
    · cases h; rfl
    · cases h; simp only [transmit_eq]; rfl

theorem exec_withBody {i : Instr} (hi : isReception i = false) {s t : State} (h : exec i s = .next t) :
    exec i (withBody m s) = .next (withBody m t) := by
  cases i with
  | cmdf f on => exact execCmdf_withBody m h
  | cmda a on => cases h; exact congrArg Host.Outcome.next (sendRaw_withBody m a on (begin s))
  | circuit dest remote on chk => cases h; exact congrArg Host.Outcome.next (sendRaw_withBody m dest on (begin s))
  | idle | query | reset | reservedOpc5 | reservedOpc6 => cases h; rfl
  | rx | sof2 | sof3 | statusL | statusE => cases hi

theorem exec_agreesOnFrame {i : Instr} (hi : isReception i = false) {s t : State} (h : exec i s = .next t)
    (hagree : AgreesOnFrame m s) : AgreesOnFrame m t := by
  by_cases hr : i = .reset
  · subst hr; cases h; exact agreesOnFrame_of_phase (by simp)
  · obtain ⟨r, d, o, he, -⟩ := otherOperationsLeaveTheDecoder i s hi hr
    cases he.symm.trans h
    exact hagree

/-! ### Received bytes -/

variable {m}

/-- Two buffers that agree below a cell agree up to it once both have it written. -/
theorem read_write_agree {m₁ m₂ : Memory} (h₁ : m₁.wf = true) (h₂ : m₂.wf = true) {c : Nat} (b : Byte)
    (hagree : ∀ a, a < c → m₁.read a = m₂.read a) :
    ∀ a, a < c + 1 → (m₁.write c b).read a = (m₂.write c b).read a := by
  intro a ha
  by_cases hac : a = c
  · rw [hac, Memory.read_write_same h₁, Memory.read_write_same h₂]
  · rw [Memory.read_write_ne _ hac, Memory.read_write_ne _ hac, hagree a (by omega)]

theorem rxByte_withBody {b : Byte} {s t : State} (hs : Inv s) (h : rxByte b s = .next t) (hm : m.wf = true)
    (hagree : AgreesOnFrame m s) :
    ∃ m' : Memory, m'.wf = true ∧ rxByte b (withBody m s) = .next (withBody m' t) ∧ AgreesOnFrame m' t := by
  have hwf := body_wf_of_inv hs
  obtain ⟨hp, hsof, rfl⟩ | ⟨hp, hsof, rfl⟩ | ⟨hp, hlt, h', hput, rfl⟩ | ⟨hp, hcnt, rfl⟩ | ⟨hp, hlt, hlen, rfl⟩ |
    ⟨hp, hlt, hlen, rfl⟩ := rxByte_cases h
  · refine ⟨m, hm, ?_, agreesOnFrame_of_phase (by simp)⟩
    rw [rxByte_scanning (s := withBody m s) hp, rxScan_of_sof (s := withBody m s) hsof]; rfl
  · refine ⟨m, hm, ?_, agreesOnFrame_of_phase (by simp [hp])⟩
    rw [rxByte_scanning (s := withBody m s) hp, rxScan_of_miss (s := withBody m s) hsof]; rfl
  · refine ⟨m, hm, ?_, agreesOnFrame_of_phase (by simp [hp])⟩
    rw [rxByte_readingHeader (s := withBody m s) hp, rxHeader_early (s := withBody m s) hlt hput]; rfl
  · refine ⟨m, hm, ?_, headerComplete_agreesOnFrame m _⟩
    rw [rxByte_readingHeader (s := withBody m s) hp, rxHeader_fifth (s := withBody m s) hcnt, ← headerComplete_withBody]
    rfl
  · refine ⟨m.write s.cnt.toNat b, Memory.wf_write hm hlt b, ?_, fun _ a ha => ?_⟩
    · rw [rxByte_readingBody (s := withBody m s) hp, rxBody_early (s := withBody m s) hlt hlen]; rfl
    · rw [emit_cnt, cnt_succ_toNat (by omega)] at ha
      exact read_write_agree hm hwf b (hagree hp) a ha
  · refine ⟨m.write s.cnt.toNat b, Memory.wf_write hm hlt b, ?_, agreesOnFrame_of_phase (by simp [bodyComplete_eq])⟩
    have hbytes : (List.range s.hdr.len.toNat).map (m.write s.cnt.toNat b).read =
        (List.range s.hdr.len.toNat).map (s.body.write s.cnt.toNat b).read :=
      List.map_congr_left fun a ha =>
        read_write_agree hm hwf b (hagree hp) a (by have := List.mem_range.1 ha; omega)
    rw [rxByte_readingBody (s := withBody m s) hp, rxBody_last (s := withBody m s) hlt hlen, bodyComplete_eq,
      bodyComplete_eq, ← interpret_withBody]
    simp only [bodyBytes, withBody, hbytes]
    rfl

theorem feed_withBody {bytes : List Byte} {s t : State} (hs : Inv s) (h : feed bytes s = .next t) (hm : m.wf = true)
    (hagree : AgreesOnFrame m s) :
    ∃ m' : Memory, m'.wf = true ∧ feed bytes (withBody m s) = .next (withBody m' t) ∧ AgreesOnFrame m' t := by
  induction bytes generalizing s m with
  | nil => cases h; exact ⟨m, hm, rfl, hagree⟩
  | cons b bs ih =>
    obtain ⟨u, hu, ht⟩ := andThen_eq_next h
    obtain ⟨m₁, hm₁, hu₁, hagree₁⟩ := rxByte_withBody hs hu hm hagree
    obtain ⟨m₂, hm₂, ht₂, hagree₂⟩ := ih (rxByte_inv hs hu) ht hm₁ hagree₁
    exact ⟨m₂, hm₂, by rw [feed, hu₁, andThen_next, ht₂], hagree₂⟩

/-! ### The step -/

theorem runPresented_withBody {p : Presented} {s t : State} (hs : Inv s) (h : runPresented p s = .next t)
    (hm : m.wf = true) (hagree : AgreesOnFrame m s) :
    ∃ m' : Memory, m'.wf = true ∧ runPresented p (withBody m s) = .next (withBody m' t) ∧ AgreesOnFrame m' t := by
  obtain ⟨bytes, hfeed⟩ | ⟨i, hi, hexec⟩ | hrefused := runPresented_cases p
  · rw [hfeed] at h ⊢
    exact feed_withBody (s := begin s) hs h hm hagree
  · rw [hexec] at h ⊢
    exact ⟨m, hm, exec_withBody m hi h, exec_agreesOnFrame m hi h hagree⟩
  · cases (hrefused s).symm.trans h

/-- Settles O52: the replaced buffer goes through every operation unread, except the last byte of a body, which reads
the cells of the frame and no others. -/
theorem staleBodyIsUnobservable : Obligations.StaleBodyIsUnobservable := by
  intro s s' t hs hsame h
  obtain ⟨m, hm, rfl, hagree⟩ := (sameButStaleBody_iff s s').1 hsame
  simp only [sameButStaleBody_iff]
  cases hport : s.port with
  | nil =>
    cases (stepWithNothingPresentedHoldsState s hport).symm.trans h
    exact ⟨_, stepWithNothingPresentedHoldsState (withBody m s) hport, m, hm, rfl, hagree⟩
  | cons p rest =>
    rw [step_cons hport] at h
    obtain ⟨m', hm', ht', hagree'⟩ := runPresented_withBody (s := { s with port := rest }) hs h hm hagree
    exact ⟨_, (step_cons (s := withBody m s) hport).trans ht', m', hm', rfl, hagree'⟩

end Sys2Proof.Claims
end

section
/-! `RX` while Scanning and while a header is read (40_rx_sync.md R101 to R110): one row of the transition table
each. -/

namespace Sys2Proof.Claims

open Sys2Proof.Machine

/-! ### Scanning -/

theorem isSof_iff (p2 p1 b : Byte) : isSof p2 p1 b = true ↔ CompletesMarker p2 p1 b := by
  simp [isSof, CompletesMarker]

/-- Settles O13: the byte fails the marker test, so it only enters the lookback. -/
theorem resyncMissChangesOnlyTheLookback : Obligations.ResyncMissChangesOnlyTheLookback := by
  intro b s hp hmiss
  have hsof : isSof s.prev2 s.prev b = false := Bool.eq_false_iff.2 (mt (isSof_iff _ _ _).1 hmiss)
  rw [exec_rx, rxByte_scanning (s := begin s) hp, rxScan_of_miss (s := begin s) hsof]
  rfl

/-- Settles O14: the byte passes the marker test. -/
theorem markerOpensAHeader : Obligations.MarkerOpensAHeader := by
  intro b s hp hmarker
  have hsof : isSof s.prev2 s.prev b = true := (isSof_iff _ _ _).2 hmarker
  rw [exec_rx, rxByte_scanning (s := begin s) hp, rxScan_of_sof (s := begin s) hsof]
  rfl

/-- Settles O15: both rows feed their marker, which `feed_marker` follows from any lookback. -/
theorem bothMarkersOpenAHeader : Obligations.BothMarkersOpenAHeader :=
  fun s hp => ⟨feed_marker .two (begin s) hp, feed_marker .three (begin s) hp⟩

/-! ### The first four header bytes -/

/-- Storing a header byte is storing it in the list of the five. -/
theorem headerList_put {h h' : Header} {i : Nat} {b : Byte} (hput : h.put i b = some h') :
    headerList h' = (headerList h).set i b := by
  have hi := Header.put_some_le hput
  interval_cases i <;> cases hput <;> rfl

/-- Settles O16: below the fifth the byte is stored and counted, and the header is not judged yet. -/
theorem earlyHeaderByteIsStored : Obligations.EarlyHeaderByteIsStored := by
  intro b s hp hcnt
  obtain ⟨h', hput⟩ := Header.put_isSome (Nat.le_of_lt hcnt) s.hdr b
  refine ⟨h', headerList_put hput, ?_⟩
  rw [exec_rx, rxByte_readingHeader (s := begin s) hp, rxHeader_early (s := begin s) hcnt hput]
  rfl

/-! ### The fifth header byte -/

/-- The state in which the fifth header byte is judged. -/
def withFifthByte (b : Byte) (s : State) : State := { begin s with hdr := { s.hdr with len := b }, cnt := 5 }

theorem exec_rx_fifth {s : State} (hp : s.phase = .readingHeader) (hcnt : s.cnt = 4) (b : Byte) :
    exec (.rx b) s = .next (headerComplete (withFifthByte b s)) := by
  rw [exec_rx, rxByte_readingHeader (s := begin s) hp, rxHeader_fifth (s := begin s) hcnt]
  rfl

theorem headerComplete_of_wrong_triple {s : State} (h : ¬ IsStatusTriple s.cfg s.hdr.typ s.hdr.dst s.hdr.src) :
    headerComplete s = raiseDiscard .headerRejected s := by
  have hfalse : tripleOk s.cfg s.hdr = false := Bool.eq_false_iff.2 (mt (tripleOk_iff _ _).1 h)
  rw [headerComplete, if_pos hfalse]

theorem headerComplete_of_oversized {s : State} (h : IsStatusTriple s.cfg s.hdr.typ s.hdr.dst s.hdr.src)
    (hlen : 128 < s.hdr.len.toNat) : headerComplete s = raiseDiscard .oversizedBody s := by
  obtain ⟨ht, -⟩ | ⟨-, -, he⟩ | ⟨-, hz, -⟩ | ⟨-, -, hle, -⟩ := headerComplete_cases s
  · simp [(tripleOk_iff _ _).2 h] at ht
  · exact he
  · simp [hz] at hlen
  · omega

theorem headerComplete_of_body {s : State} (h : IsStatusTriple s.cfg s.hdr.typ s.hdr.dst s.hdr.src)
    (hpos : 1 ≤ s.hdr.len.toNat) (hlen : s.hdr.len.toNat ≤ 128) :
    headerComplete s = emit .yield (emit (.ev .needMoreInput) { s with phase := .readingBody, cnt := 0 }) := by
  obtain ⟨ht, -⟩ | ⟨-, hlt, -⟩ | ⟨-, hz, -⟩ | ⟨-, -, -, he⟩ := headerComplete_cases s
  · simp [(tripleOk_iff _ _).2 h] at ht
  · omega
  · simp [hz] at hpos
  · exact he

theorem headerComplete_of_empty {s : State} (h : IsStatusTriple s.cfg s.hdr.typ s.hdr.dst s.hdr.src)
    (hz : s.hdr.len = 0) : headerComplete s =
      raiseRefuse .malformedStatusLength (emit (.ev (.frameReady s.hdr [])) (enterScanning s)) := by
  obtain ⟨ht, -⟩ | ⟨-, hlt, -⟩ | ⟨-, -, he⟩ | ⟨-, hpos, -⟩ := headerComplete_cases s
  · simp [(tripleOk_iff _ _).2 h] at ht
  · simp [hz] at hlt
  · exact he
  · simp [hz] at hpos

/-- Settles O17: the triple is the first thing judged. -/
theorem wrongTripleIsDiscarded : Obligations.WrongTripleIsDiscarded := by
  intro b s hp hcnt htriple
  rw [exec_rx_fifth hp hcnt, headerComplete_of_wrong_triple (s := withFifthByte b s) htriple, raiseDiscard_eq]
  rfl

/-- Settles O18: the length is judged once the triple is right. -/
theorem oversizedBodyIsDiscarded : Obligations.OversizedBodyIsDiscarded := by
  intro b s hp hcnt htriple hlen
  rw [exec_rx_fifth hp hcnt, headerComplete_of_oversized (s := withFifthByte b s) htriple hlen, raiseDiscard_eq]
  rfl

/-- Settles O19: neither discard applies and the body is not empty. -/
theorem acceptedHeaderStartsTheBody : Obligations.AcceptedHeaderStartsTheBody := by
  intro b s hp hcnt htriple hpos hlen
  rw [exec_rx_fifth hp hcnt, headerComplete_of_body (s := withFifthByte b s) htriple hpos hlen]
  rfl

/-- Settles O20: the empty body is handed out, and its length is not 27. -/
theorem emptyBodyIsHandedOutAtOnce : Obligations.EmptyBodyIsHandedOutAtOnce := by
  intro s hp hcnt htriple
  rw [exec_rx_fifth hp hcnt, headerComplete_of_empty (s := withFifthByte 0 s) htriple rfl]
  rfl

/-- Settles O30: the discard leaves Scanning, where either marker opens a header. -/
theorem markerIsFoundAfterARejectedHeader : Obligations.MarkerIsFoundAfterARejectedHeader := by
  intro b s hp hcnt htriple
  refine ⟨_, _, _, wrongTripleIsDiscarded b s hp hcnt htriple, (bothMarkersOpenAHeader _ rfl).1,
    (bothMarkersOpenAHeader _ rfl).2, rfl, rfl, rfl, rfl, rfl, rfl⟩

/-- The two dialects' status types differ (00_scope.md R8). -/
theorem not_isStatusTriple_of_other_dialect {c : Config} {typ : Byte}
    (h : (c.dialect = .E ∧ typ = 0x02) ∨ (c.dialect = .L ∧ typ = 0x14)) (dst src : Byte) :
    ¬ IsStatusTriple c typ dst src := by
  rintro ⟨htyp, -, -⟩
  obtain ⟨hd, rfl⟩ | ⟨hd, rfl⟩ := h <;> simp [statusType, hd] at htyp

/-- Settles O56: the other dialect's type makes the triple a wrong one. -/
theorem otherDialectsHeaderIsRejected : Obligations.OtherDialectsHeaderIsRejected := by
  intro b s hp hcnt hother
  exact ⟨_, wrongTripleIsDiscarded b s hp hcnt (not_isStatusTriple_of_other_dialect hother _ _),
    rfl, rfl, rfl, rfl, rfl, rfl⟩

end Sys2Proof.Claims
end

section
/-! `RX` while a body is read, and what the interpreter makes of a completed one (40_rx_sync.md R108, R109,
41_status_interp.md R130 to R138). -/

namespace Sys2Proof.Claims

open Sys2Proof.Machine

/-! ### An accepted payload -/

theorem payloadByte_mk {b : List Byte} (hb : b.length = statusLen) (c : Config) (fld : PayloadField) :
    payloadByte c ⟨b.toArray, hb⟩ fld = b.getD (payloadOffset c fld) 0 := by
  have hlt : (payloadOffset c fld).val < b.length := hb ▸ (payloadOffset c fld).isLt
  simp [payloadByte, List.getElem?_eq_getElem hlt]

theorem reported_mk {b : List Byte} (hb : b.length = statusLen) (c : Config) :
    reported c ⟨b.toArray, hb⟩ = bodyReports b := by
  simp only [reported, payloadByte_mk]
  rfl

/-- Acceptance in the vocabulary of the statements (41_status_interp.md R138). -/
theorem interpret_accepted {h : Header} {b : List Byte} {s : State} (hb : b.length = 27)
    (htriple : IsStatusTriple s.cfg h.typ h.dst h.src) (hcmd : IsStatusCommand s.cfg h.cmd) :
    ∃ (r : Vector Bool 16) (p : Vector Byte 27),
      interpret h b s = { s with
        reg := r, lastStatus := p, statusValid := true, out := s.out ++ statusOutputs s b } ∧
      p.toList = b ∧ RegistryAfterStatus s.reg r b := by
  refine ⟨((bodyReports b).foldl refresh (retain ⟨b.toArray, hb⟩ s)).reg, ⟨b.toArray, hb⟩, ?_, by simp [Vector.toList],
    fun f => ?_⟩
  · rw [interpret_of_guard_true hb ((guardOk_iff s.cfg h).2 ⟨htriple, hcmd⟩), acceptStatus_eq, reported_mk,
      payloadByte_mk, payloadByte_mk, List.append_assoc]
    rfl
  · exact regGet_foldl_refresh _ (retain ⟨b.toArray, hb⟩ s) (reported_mk hb s.cfg ▸ nodup_reported _ _)

/-! ### A byte that leaves the body incomplete -/

theorem exec_rx_early_body {s : State} (hs : Inv s) (hp : s.phase = .readingBody)
    (hcnt : s.cnt.toNat + 1 < s.hdr.len.toNat) (b : Byte) :
    exec (.rx b) s = .next { s with
      body := s.body.write s.cnt.toNat b, cnt := s.cnt + 1, out := [.ev .needMoreInput] } := by
  obtain ⟨-, hmax, hlt, -⟩ := readingBodyInv_of_inv hs hp
  rw [exec_rx, rxByte_readingBody (s := begin s) hp, rxBody_early (s := begin s) (by simp only [begin_cnt]; omega) hcnt]
  rfl

theorem read_write {m : Memory} (hm : m.wf = true) (c : Nat) (b : Byte) (a : Nat) :
    (m.write c b).read a = if a = c then b else m.read a := by
  by_cases hac : a = c
  · rw [if_pos hac, hac, Memory.read_write_same hm]
  · rw [if_neg hac, Memory.read_write_ne _ hac]

/-- Settles O22: the byte is stored and counted, and the body is not complete yet. -/
theorem earlyBodyByteIsStored : Obligations.EarlyBodyByteIsStored := by
  intro b s hs hp hcnt
  obtain ⟨-, hmax, hlt, -⟩ := readingBodyInv_of_inv hs hp
  have hwf := body_wf_of_inv hs
  exact ⟨_, exec_rx_early_body hs hp hcnt b, Memory.wf_write hwf (show s.cnt.toNat < 128 by omega) b,
    read_write hwf s.cnt.toNat b⟩

/-! ### The last byte of a body -/

/-- What is handed out when a body is completed: the bytes stored before and the last one (40_rx_sync.md R109). -/
def completedBody (b : Byte) (s : State) : List Byte := (List.range s.cnt.toNat).map s.body.read ++ [b]

/-- The state in which a completed body is interpreted (40_rx_sync.md R109). -/
def handedOut (b : Byte) (s : State) : State := { s with
  phase := .scanning, cnt := 0, prev := 0, prev2 := 0, body := s.body.write s.cnt.toNat b
  out := [.ev (.frameReady s.hdr (completedBody b s))] }

@[simp] theorem length_completedBody (b : Byte) (s : State) : (completedBody b s).length = s.cnt.toNat + 1 := by
  simp [completedBody]

theorem exec_rx_last_body {s : State} (hs : Inv s) (hp : s.phase = .readingBody)
    (hcnt : s.cnt.toNat + 1 = s.hdr.len.toNat) (b : Byte) :
    exec (.rx b) s = .next (interpret s.hdr (completedBody b s) (handedOut b s)) := by
  obtain ⟨-, hmax, hlt, -⟩ := readingBodyInv_of_inv hs hp
  have hbytes := bodyBytes_write (body_wf_of_inv hs) s.cnt.toNat b
  rw [exec_rx, rxByte_readingBody (s := begin s) hp,
    rxBody_last (s := begin s) (by simp only [begin_cnt]; omega) (by simp only [begin_cnt, begin_hdr]; omega),
    bodyComplete_eq]
  simp only [bodyBytes, begin_body, begin_cnt, begin_hdr, ← hcnt, hbytes]
  rfl

/-- Settles O23: the completed body is handed out, and its length is not 27. -/
theorem wrongStatusLengthIsRefused : Obligations.WrongStatusLengthIsRefused := by
  intro b s hs hp hcnt hlen
  refine ⟨_, read_write (body_wf_of_inv hs) s.cnt.toNat b, ?_⟩
  have hne : (completedBody b s).length ≠ statusLen := by rw [length_completedBody, hcnt]; exact hlen
  rw [exec_rx_last_body hs hp hcnt, interpret_of_length_ne _ hne]
  rfl

/-- Settles O24: the length is right and the guard fails on the command byte. -/
theorem unexpectedCommandIsRefused : Obligations.UnexpectedCommandIsRefused := by
  intro b s hs hp hcnt hlen hcmd
  refine ⟨s.body.write s.cnt.toNat b, hcnt ▸ read_write (body_wf_of_inv hs) s.cnt.toNat b, ?_⟩
  have hb : (completedBody b s).length = statusLen := by rw [length_completedBody, hcnt]
  have hguard : guardOk s.cfg s.hdr = false := Bool.eq_false_iff.2 fun h => hcmd ((guardOk_iff _ _).1 h).2
  rw [exec_rx_last_body hs hp (by omega), interpret_of_guard_false (s := handedOut b s) hb hguard, ← hcnt]
  rfl

/-- Settles O25: the triple is the invariant's, so the guard passes and the payload is accepted. -/
theorem acceptedStatusFrame : Obligations.AcceptedStatusFrame := by
  intro b s bytes hs hp hcnt hlen hcmd hbytes
  obtain ⟨-, -, -, htyp, hdst, hsrc, -⟩ := readingBodyInv_of_inv hs hp
  have hbody : bytes = completedBody b s := by rw [hbytes, completedBody, hcnt]
  subst hbody
  obtain ⟨r, p, he, hp', hr⟩ := interpret_accepted (s := handedOut b s) (b := completedBody b s)
    (by rw [length_completedBody, hcnt]) ⟨htyp, hdst, hsrc⟩ hcmd
  refine ⟨s.body.write s.cnt.toNat b, r, p, ?_, hp', hr, hcnt ▸ read_write (body_wf_of_inv hs) s.cnt.toNat b⟩
  rw [exec_rx_last_body hs hp (by omega), he]
  rfl

/-- Settles O29: the two body rows write the one cell, and no other row writes the buffer. -/
theorem rxStoresOnlyAtTheCount : Obligations.RxStoresOnlyAtTheCount := by
  intro b s t hs h
  have hread := read_write (body_wf_of_inv hs) s.cnt.toNat b
  obtain ⟨hp, -, rfl⟩ | ⟨hp, -, rfl⟩ | ⟨hp, -, h', -, rfl⟩ | ⟨hp, -, rfl⟩ | ⟨hp, -, -, rfl⟩ | ⟨hp, -, -, rfl⟩ :=
    rxByte_cases (s := begin s) h <;> rw [begin_phase] at hp <;> rw [hp]
  · exact ⟨fun _ => rfl, nofun⟩
  · exact ⟨fun _ => rfl, nofun⟩
  · exact ⟨fun _ => rfl, nofun⟩
  · exact ⟨fun _ => headerComplete_body _, nofun⟩
  · exact ⟨fun hne => absurd rfl hne, fun _ => hread⟩
  · exact ⟨fun hne => absurd rfl hne, fun _ => by simpa [bodyComplete_eq] using hread⟩

end Sys2Proof.Claims
end

section
/-! What a received byte puts out (40_rx_sync.md R100, 60_exceptions.md R187), and when it writes the retained status
and the registry (10_state.md R26, R27). -/

namespace Sys2Proof.Claims

open Sys2Proof.Machine

/-! ### The outputs of a received byte -/

/-- What may follow the one `Ev` of a received byte (40_rx_sync.md R100). -/
def MayFollowEv (o : Output) : Prop := isEv o = false ∧ (∀ v, o ≠ .de v) ∧ (∀ v, o ≠ .tx v) ∧ ∀ v, o ≠ .queryResult v

theorem mayFollowEv_yield : MayFollowEv .yield := ⟨rfl, nofun, nofun, nofun⟩

theorem mayFollowEv_diag (c : Cause) : MayFollowEv (.diag c) := ⟨rfl, nofun, nofun, nofun⟩

theorem mayFollowEv_featurePush (f : FeatureId) (v : Bool) : MayFollowEv (.featurePush f v) :=
  ⟨rfl, nofun, nofun, nofun⟩

theorem mayFollowEv_telemetryPush (ch : Channel) (v : Byte) : MayFollowEv (.telemetryPush ch v) :=
  ⟨rfl, nofun, nofun, nofun⟩

/-- From `s` to `t` the outputs grew by `l`, in which nothing is an `Ev` or a send, and at most one cause was raised. -/
def AppendsQuietly (s t : State) (l : List Output) : Prop :=
  t.out = s.out ++ l ∧ (∀ o ∈ l, MayFollowEv o) ∧ RecordsCause s.diag t.diag l

theorem raiseRefuse_appendsQuietly (c : Cause) (s : State) : AppendsQuietly s (raiseRefuse c s) [.diag c] :=
  ⟨rfl, by simpa using mayFollowEv_diag c, .inr rfl⟩

/-- The pushes of an accepted payload, changes first, then the two temperatures. -/
theorem acceptStatus_appendsQuietly (p : Payload) (s : State) : ∃ l, AppendsQuietly s (acceptStatus p s) l := by
  rw [acceptStatus_eq]
  refine ⟨_, List.append_assoc _ _ _, fun o ho => ?_, .inl ⟨rfl, by simp [List.filter_map]⟩⟩
  simp only [List.mem_append, List.mem_map, List.mem_cons, List.not_mem_nil, or_false] at ho
  obtain ⟨e, -, rfl⟩ | rfl | rfl := ho
  · exact mayFollowEv_featurePush _ _
  · exact mayFollowEv_telemetryPush _ _
  · exact mayFollowEv_telemetryPush _ _

theorem interpret_appendsQuietly (h : Header) (b : List Byte) (s : State) :
    ∃ l, AppendsQuietly s (interpret h b s) l := by
  obtain ⟨-, he⟩ | ⟨-, -, he⟩ | ⟨_, -, he⟩ := interpret_cases h b s <;> rw [he]
  · exact ⟨_, raiseRefuse_appendsQuietly _ s⟩
  · exact ⟨_, raiseRefuse_appendsQuietly _ s⟩
  · exact acceptStatus_appendsQuietly _ s

/-- From `s` to `t` the outputs grew by one `Ev` and what may follow it, and at most one cause was raised. -/
def AppendsOneEv (s t : State) : Prop :=
  ∃ e l, t.out = s.out ++ .ev e :: l ∧ (∀ o ∈ l, MayFollowEv o) ∧ RecordsCause s.diag t.diag l

theorem appendsOneEv_emit {s t : State} (e : DecodeEvent) (hout : t.out = s.out) (hdiag : t.diag = s.diag) :
    AppendsOneEv s (emit (.ev e) t) :=
  ⟨e, [], by rw [emit_out, hout], nofun, .inl ⟨hdiag, rfl⟩⟩

theorem AppendsQuietly.appendsOneEv {s t u : State} {e : DecodeEvent} {l : List Output} (h : AppendsQuietly t u l)
    (hout : t.out = s.out ++ [.ev e]) (hdiag : t.diag = s.diag) : AppendsOneEv s u := by
  obtain ⟨hu, hquiet, hcause⟩ := h
  exact ⟨e, l, by rw [hu, hout, List.append_assoc]; rfl, hquiet, hdiag ▸ hcause⟩

theorem raiseDiscard_appendsOneEv (c : Cause) (s : State) : AppendsOneEv s (raiseDiscard c s) :=
  ⟨.frameDiscarded, [.diag c], by rw [raiseDiscard_eq], by simpa using mayFollowEv_diag c, .inr rfl⟩

theorem headerComplete_appendsOneEv (s : State) : AppendsOneEv s (headerComplete s) := by
  obtain ⟨-, he⟩ | ⟨-, -, he⟩ | ⟨-, -, he⟩ | ⟨-, -, -, he⟩ := headerComplete_cases s <;> rw [he]
  · exact raiseDiscard_appendsOneEv _ s
  · exact raiseDiscard_appendsOneEv _ s
  · exact (raiseRefuse_appendsQuietly _ _).appendsOneEv rfl rfl
  · exact ⟨.needMoreInput, [.yield], by simp, by simpa using mayFollowEv_yield, .inl ⟨rfl, rfl⟩⟩

theorem rxByte_appendsOneEv {b : Byte} {s t : State} (h : rxByte b s = .next t) : AppendsOneEv s t := by
  obtain ⟨-, -, rfl⟩ | ⟨-, -, rfl⟩ | ⟨-, -, h', -, rfl⟩ | ⟨-, -, rfl⟩ | ⟨-, -, -, rfl⟩ | ⟨-, -, -, rfl⟩ :=
    rxByte_cases h
  · exact appendsOneEv_emit _ rfl rfl
  · exact appendsOneEv_emit _ rfl rfl
  · exact appendsOneEv_emit _ rfl rfl
  · exact headerComplete_appendsOneEv _
  · exact appendsOneEv_emit _ rfl rfl
  · rw [bodyComplete_eq]
    obtain ⟨l, hl⟩ := interpret_appendsQuietly s.hdr _ _
    exact hl.appendsOneEv rfl rfl

/-- Settles O27: an operation begins with no output. -/
theorem rxEmitsExactlyOneEvFirst : Obligations.RxEmitsExactlyOneEvFirst := by
  intro b s t h
  obtain ⟨e, l, hout, hquiet, -⟩ := rxByte_appendsOneEv (s := begin s) h
  exact ⟨e, l, hout, hquiet⟩

/-- Settles O42: a received byte raises at most one cause, after its `Ev`; so do the five effects of the others. -/
theorem diagRecordsTheOneCause : Obligations.DiagRecordsTheOneCause := by
  rintro i s t (⟨b, rfl⟩ | ⟨hi, hr⟩) h
  · obtain ⟨e, l, hout, -, hcause⟩ := rxByte_appendsOneEv (s := begin s) h
    have hfilter : t.out.filter isDiag = l.filter isDiag := by rw [hout]; rfl
    rw [hfilter]
    exact hcause
  · obtain ⟨t', ht', heffect⟩ := exec_other i s hi hr
    cases ht'.symm.trans h
    exact heffect.recordsCause

/-! ### The retained status -/

/-- The retained status is as before, or is the body of the frame handed out, and valid. -/
def KeepsOrRetains (s t : State) : Prop :=
  (t.lastStatus = s.lastStatus ∧ t.statusValid = s.statusValid) ∨
  (t.statusValid = true ∧ ∃ h l, t.out = s.out ++ .ev (.frameReady h t.lastStatus.toList) :: l)

theorem headerComplete_keeps_status (s : State) :
    (headerComplete s).lastStatus = s.lastStatus ∧ (headerComplete s).statusValid = s.statusValid := by
  obtain ⟨-, he⟩ | ⟨-, -, he⟩ | ⟨-, -, he⟩ | ⟨-, -, -, he⟩ := headerComplete_cases s <;> simp [he]

theorem bodyComplete_keepsOrRetains (s : State) : KeepsOrRetains s (bodyComplete s) := by
  rw [bodyComplete_eq]
  obtain ⟨-, he⟩ | ⟨-, -, he⟩ | ⟨hb, -, he⟩ := interpret_cases s.hdr (bodyBytes s s.hdr.len.toNat) _ <;> rw [he]
  · exact .inl ⟨rfl, rfl⟩
  · exact .inl ⟨rfl, rfl⟩
  · obtain ⟨l, hl, -⟩ := acceptStatus_appendsQuietly ⟨(bodyBytes s s.hdr.len.toNat).toArray, hb⟩
      (emit (.ev (.frameReady s.hdr (bodyBytes s s.hdr.len.toNat))) (enterScanning s))
    refine .inr ⟨by simp, s.hdr, l, ?_⟩
    rw [hl]
    simp [Vector.toList]

theorem rxByte_keepsOrRetains {b : Byte} {s t : State} (h : rxByte b s = .next t) : KeepsOrRetains s t := by
  obtain ⟨-, -, rfl⟩ | ⟨-, -, rfl⟩ | ⟨-, -, h', -, rfl⟩ | ⟨-, -, rfl⟩ | ⟨-, -, -, rfl⟩ | ⟨-, -, -, rfl⟩ :=
    rxByte_cases h
  · exact .inl ⟨rfl, rfl⟩
  · exact .inl ⟨rfl, rfl⟩
  · exact .inl ⟨rfl, rfl⟩
  · exact .inl (headerComplete_keeps_status _)
  · exact .inl ⟨rfl, rfl⟩
  · exact bodyComplete_keepsOrRetains _

/-- Settles O45: only a completed body is retained, right after it was handed out. -/
theorem retainedStatusChangesOnlyByAcceptance : Obligations.RetainedStatusChangesOnlyByAcceptance := by
  intro b s t h
  obtain hkeeps | ⟨hvalid, hd, l, hout⟩ := rxByte_keepsOrRetains (s := begin s) h
  · exact .inl hkeeps
  · exact .inr ⟨hvalid, hd, by rw [hout]; rfl⟩

/-! ### The registry entries no status reports -/

/-- The entries outside both maps of 10_state.md R31. -/
def unreported : List FeatureId :=
  [.unknown, .aux, .reserved10, .reserved11, .reserved12, .reserved13, .reserved14, .reserved15]

theorem notMem_reported {f : FeatureId} (hf : f ∈ unreported) (c : Config) (p : Payload) :
    f ∉ (reported c p).map Prod.fst := by
  have hfst : (reported c p).map Prod.fst = equip1Map.map Prod.snd ++ equip2Map.map Prod.snd := rfl
  rw [hfst]
  revert f
  decide

theorem interpret_keeps_unreported {f : FeatureId} (hf : f ∈ unreported) (h : Header) (b : List Byte) (s : State) :
    regGet (interpret h b s) f = regGet s f := by
  obtain ⟨-, he⟩ | ⟨-, -, he⟩ | ⟨hb, -, he⟩ := interpret_cases h b s <;> rw [he]
  · rfl
  · rfl
  · have hloop := regGet_foldl_refresh_of_notMem _ (retain ⟨b.toArray, hb⟩ s) (notMem_reported hf s.cfg ⟨b.toArray, hb⟩)
    rw [acceptStatus_eq]
    simpa only [regGet, retain_reg] using hloop

theorem headerComplete_reg (s : State) : (headerComplete s).reg = s.reg := by
  obtain ⟨-, he⟩ | ⟨-, -, he⟩ | ⟨-, -, he⟩ | ⟨-, -, -, he⟩ := headerComplete_cases s <;> simp [he]

theorem rxByte_keeps_unreported {f : FeatureId} (hf : f ∈ unreported) {b : Byte} {s t : State}
    (h : rxByte b s = .next t) : regGet t f = regGet s f := by
  obtain ⟨-, -, rfl⟩ | ⟨-, -, rfl⟩ | ⟨-, -, h', -, rfl⟩ | ⟨-, -, rfl⟩ | ⟨-, -, -, rfl⟩ | ⟨-, -, -, rfl⟩ :=
    rxByte_cases h
  · rfl
  · rfl
  · rfl
  · exact congrArg (fun r : Vector Bool 16 => r[featureNum f]) (headerComplete_reg _)
  · rfl
  · rw [bodyComplete_eq, interpret_keeps_unreported hf]; rfl

/-- Settles O44: bursts byte by byte, the other instructions by their frame. -/
theorem unreportedEntriesChangeOnlyByCommand : Obligations.UnreportedEntriesChangeOnlyByCommand := by
  intro i s t f hf hr hcmdf h
  cases hi : isReception i with
  | true =>
    obtain ⟨bytes, hfeed⟩ := exec_of_isReception hi
    exact feed_induction (P := fun s t => regGet t f = regGet s f) (fun _ => rfl)
      (fun _ _ _ h₁ h₂ => h₂.trans h₁) (fun _ _ _ => rxByte_keeps_unreported hf) bytes (begin s) t
      ((hfeed s).symm.trans h)
  | false =>
    obtain ⟨r, d, o, he, hreg⟩ := otherOperationsLeaveTheDecoder i s hi hr
    cases he.symm.trans h
    exact hreg f hcmdf

end Sys2Proof.Claims
end

section
/-! Bytes act the same however they are grouped (40_rx_sync.md R103): a burst, the operation words of its bytes, a poll
of a queue that begins with them. -/

namespace Sys2Proof.Claims

open Sys2Proof.Machine

theorem step_wireIn {s : State} {bytes : List Byte} {rest : List Presented} (h : s.port = .wireIn bytes :: rest) :
    step s = feed bytes (begin { s with port := rest }) := by
  rw [step_cons h, runPresented_wireIn]

theorem feed_append_of_next {xs ys : List Byte} {s t : State} {r : Result} (hx : feed xs s = .next t)
    (hy : feed ys t = r) : feed (xs ++ ys) s = r := by
  rw [feed_append, hx, andThen_next, hy]

/-! ### A burst as operation words -/

theorem rxWord_eq : ∀ b : Byte, rxWord b = mkOpw 1 false 0 b := by decide

theorem step_rxWord {s : State} {b : Byte} {rest : List Presented} (h : s.port = .opw (rxWord b) :: rest) :
    step s = rxByte b (begin { s with port := rest }) := by
  have hdecode : decode (.opw (rxWord b)) = .ok (.rx b) :=
    decodeOpw_of_encode (i := .rx b) (congrArg Presented.opw (rxWord_eq b).symm)
  rw [step_cons h, runPresented_of_decode hdecode, exec_rx]

/-- What follows a byte of a burst acts as an operation of its own, its outputs after the byte's. -/
theorem feed_after {bytes : List Byte} {s t : State} (h : feed bytes s = .next t) :
    ∃ u, feed bytes (begin s) = .next u ∧ t = { u with out := s.out ++ u.out } := by
  rw [feed_eq_begin] at h
  cases hu : feed bytes (begin s) with
  | next u =>
    rw [hu] at h
    cases h
    refine ⟨u, rfl, ?_⟩
    rw [inContext, ← begin_port s, ← (feed_cfg_port hu).2]
  | fault f => rw [hu] at h; cases h
  | refused r => rw [hu] at h; cases h

theorem feed_of_begin {bytes : List Byte} {s u : State} (h : feed bytes (begin s) = .next u) :
    feed bytes s = .next { u with out := s.out ++ u.out } := by
  rw [feed_eq_begin, h]
  refine congrArg Host.Outcome.next ?_
  rw [inContext, ← begin_port s, ← (feed_cfg_port h).2]

theorem rxByte_withPort {b : Byte} {s t : State} (h : rxByte b (begin s) = .next t) (port : List Presented) :
    rxByte b (begin { s with port := port }) = .next { t with port := port } := by
  have hctx := rxByte_inContext [] port b (begin s)
  rw [h] at hctx
  exact hctx

/-- One operation word for each byte of a burst leaves the burst's state and, joined, its outputs. -/
theorem runOutputs_rxWords {bytes : List Byte} {rest : List Presented} {s t : State} (hport : s.port = rest)
    (h : feed bytes (begin s) = .next t) :
    ∃ u, runOutputs bytes.length { s with port := bytes.map (fun b => .opw (rxWord b)) ++ rest } = some (u, t.out) ∧
      begin u = begin t := by
  induction bytes generalizing s t with
  | nil => cases h; subst hport; exact ⟨_, rfl, rfl⟩
  | cons b bs ih =>
    obtain ⟨u, hu, ht⟩ := andThen_eq_next h
    obtain ⟨v, hv, rfl⟩ := feed_after ht
    have hport' : u.port = rest := (rxByte_cfg_port hu).2.trans hport
    obtain ⟨w, hw, hwv⟩ := ih hport' hv
    have hstep : step { s with port := (b :: bs).map (fun b => .opw (rxWord b)) ++ rest } =
        .next { u with port := bs.map (fun b => .opw (rxWord b)) ++ rest } :=
      (step_rxWord rfl).trans (rxByte_withPort hu _)
    exact ⟨w, by simp only [List.length_cons, runOutputs, hstep, hw]; rfl, hwv⟩

/-- Settles O50: both ways of presenting the bytes feed them, one operation or one step each. -/
theorem burstEqualsBytesOneByOne : Obligations.BurstEqualsBytesOneByOne := by
  intro bytes rest s hs
  obtain ⟨t, ht, -⟩ := feed_answers (s := begin { s with port := rest }) hs bytes
  obtain ⟨u, hu, hut⟩ := runOutputs_rxWords (s := { s with port := rest }) rfl ht
  exact ⟨t, u, (step_wireIn rfl).trans ht, hu, hut⟩

/-! ### A burst as a poll -/

/-- The poll loop feeds a first part of its queue and appends that part's outputs to those it has. -/
theorem pollLoop_feeds (q : List Byte) (outs : List Output) {s : State} (hs : Inv s) :
    ∃ p r t outs', pollLoop q outs s = .next ⟨t, r, outs ++ outs'⟩ ∧ q = p ++ r ∧ (q ≠ [] → p ≠ []) ∧
      feed p (begin s) = .next { t with out := outs' } := by
  induction q generalizing outs s with
  | nil => exact ⟨[], [], s, [], by simp [pollLoop], rfl, fun h => h, rfl⟩
  | cons b q ih =>
    obtain ⟨u, hu⟩ := rxByte_answers (s := begin s) hs b
    have hinv := rxByte_inv (s := begin s) hs hu
    have hexec : execRx b s = .next u := hu
    by_cases hstop : u.out.any stopsPoll = true
    · refine ⟨[b], q, u, u.out, ?_, rfl, fun _ => List.cons_ne_nil _ _, by rw [feed_singleton, hu]⟩
      simp only [pollLoop, hexec, hstop, if_true]
    · obtain ⟨p, r, t, outs', hloop, rfl, -, hfeed⟩ := ih (outs ++ u.out) hinv
      refine ⟨b :: p, r, t, u.out ++ outs', ?_, rfl, fun _ => List.cons_ne_nil _ _, ?_⟩
      · simp only [pollLoop, hexec, hstop, if_false, hloop, List.append_assoc, Bool.false_eq_true]
      · rw [feed, hu, andThen_next, feed_of_begin hfeed]

/-- Settles O58: the loop stops after some byte, the first at the earliest, or at the end of the queue. -/
theorem pollFeedsAFirstPart : Obligations.PollFeedsAFirstPart := by
  intro b q s hs
  obtain ⟨p, r, t, outs, hloop, hsplit, hne, hfeed⟩ := pollLoop_feeds (b :: q) [] hs
  exact ⟨p, r, t, outs, hloop, hsplit, hne (List.cons_ne_nil b q), hfeed⟩

/-! ### A burst within a body -/

/-- Settles O51: `feed_body` stores and counts the bytes, whatever they are. -/
theorem truncatedBodyKeepsWaiting : Obligations.TruncatedBodyKeepsWaiting := by
  intro bytes rest s hs hp hcnt hport
  obtain ⟨-, hmax, -⟩ := readingBodyInv_of_inv hs hp
  obtain ⟨m, c, hfeed, hc, -, hread⟩ :=
    feed_body bytes (begin { s with port := rest }) hp (body_wf_of_inv hs) hmax hcnt
  refine ⟨_, (step_wireIn hport).trans hfeed, hp, hc, rfl, rfl, rfl, List.ext_getElem (by simp) fun k hk hk' => ?_⟩
  simp only [List.length_map, List.length_range] at hk
  simp [hread, hk]

end Sys2Proof.Claims
end

section
/-! Whole frames (30_encoding.md R74 to R78, 40_rx_sync.md R115): noise, a frame with another triple, a frame with the
configured one. -/

namespace Sys2Proof.Claims

open Sys2Proof.Machine

/-! ### Noise -/

theorem holdsMarker_of_cons {x : Byte} {bs : List Byte} (h : holdsMarker (x :: bs) = false) :
    holdsMarker bs = false := by
  rw [holdsMarker, Bool.or_eq_false_iff] at h
  exact h.2

/-- Two zero bytes before the bytes, as a clear lookback has them, make no marker with them. -/
theorem holdsMarker_zero_zero (bs : List Byte) : holdsMarker (0 :: 0 :: bs) = holdsMarker bs := by
  simp [holdsMarker]

/-- The byte that completes a marker makes the lookback and itself hold one. -/
theorem isSof_of_holdsMarker_false {p2 p1 b : Byte} {bs : List Byte} (h : holdsMarker (p2 :: p1 :: b :: bs) = false) :
    isSof p2 p1 b = false := by
  refine Bool.eq_false_iff.2 fun hsof => ?_
  obtain ⟨rfl, rfl | ⟨rfl, rfl⟩⟩ := (isSof_iff p2 p1 b).1 hsof <;> simp [holdsMarker] at h

/-- Bytes that hold no marker, not even with the lookback before them, only pass through the lookback. -/
theorem feed_noise (bs : List Byte) (s : State) (hp : s.phase = .scanning)
    (h : holdsMarker (s.prev2 :: s.prev :: bs) = false) :
    ∃ p1 p2, feed bs s = .next { s with
      prev := p1, prev2 := p2, out := s.out ++ List.replicate bs.length (.ev .needMoreInput) } := by
  induction bs generalizing s with
  | nil => exact ⟨s.prev, s.prev2, by simp⟩
  | cons b bs ih =>
    obtain ⟨p1, p2, hfeed⟩ := ih (emit (.ev .needMoreInput) { s with prev2 := s.prev, prev := b }) hp
      (holdsMarker_of_cons h)
    refine ⟨p1, p2, ?_⟩
    rw [feed, rxByte_scanning hp, rxScan_of_miss (isSof_of_holdsMarker_false h), andThen_next, hfeed]
    simp [emit, List.replicate_succ]

theorem feed_noise_of_clear {bs : List Byte} (h : holdsMarker bs = false) {s : State} (hp : s.phase = .scanning)
    (hprev : s.prev = 0) (hprev2 : s.prev2 = 0) :
    ∃ p1 p2, feed bs s = .next { s with
      prev := p1, prev2 := p2, out := s.out ++ List.replicate bs.length (.ev .needMoreInput) } :=
  feed_noise bs s hp (by rw [hprev, hprev2, holdsMarker_zero_zero, h])

/-! ### A marker and a header -/

/-- The state in which the header of a frame received while Scanning is judged. -/
def headerRead (mk : Marker) (h : Header) (s : State) : State := { s with
  phase := .readingHeader, cnt := 5, prev := 0, prev2 := 0, hdr := h
  out := s.out ++ List.replicate ((markerBytes mk).length + 4) (.ev .needMoreInput) }

theorem feed_marker_header (mk : Marker) (h : Header) {s : State} (hp : s.phase = .scanning) :
    feed (markerBytes mk ++ headerList h) s = .next (headerComplete (headerRead mk h s)) := by
  rw [headerList, feed_append_of_next (feed_marker mk s hp) (feed_header h _ rfl rfl), headerRead,
    ← List.replicate_append_replicate, List.append_assoc]

/-- A frame with another triple is discarded at its header; what follows without a marker is noise. -/
theorem feed_frame_of_wrong_triple (mk : Marker) {h : Header} {tail : List Byte} {s : State} (hp : s.phase = .scanning)
    (htriple : ¬ IsStatusTriple s.cfg h.typ h.dst h.src) (htail : holdsMarker tail = false) :
    ∃ p1 p2, feed (markerBytes mk ++ headerList h ++ tail) s = .next { s with
      phase := .scanning, cnt := 0, prev := p1, prev2 := p2, hdr := h, diag := .headerRejected
      out := s.out ++ (List.replicate ((markerBytes mk).length + 4) (.ev .needMoreInput) ++
        [.ev .frameDiscarded, .diag .headerRejected] ++ List.replicate tail.length (.ev .needMoreInput)) } := by
  obtain ⟨p1, p2, hnoise⟩ :=
    feed_noise_of_clear (s := raiseDiscard .headerRejected (headerRead mk h s)) htail rfl rfl rfl
  refine ⟨p1, p2, ?_⟩
  rw [feed_append, feed_marker_header mk h hp, headerComplete_of_wrong_triple (s := headerRead mk h s) htriple,
    andThen_next, hnoise, raiseDiscard_eq]
  simp only [headerRead, List.append_assoc]

/-- Settles O59: the row's bytes are such a frame. -/
theorem statusFrameForAnotherTripleIsDiscarded : Obligations.StatusFrameForAnotherTripleIsDiscarded := by
  intro i mk h tail s hp hencode htriple htail
  rw [exec_of_encode_wireIn hencode]
  exact feed_frame_of_wrong_triple mk (s := begin s) hp htriple htail

/-- The command frame's type is neither dialect's status type (30_encoding.md R79). -/
theorem not_isStatusTriple_cmdType (c : Config) (dst src : Byte) : ¬ IsStatusTriple c 0x10 dst src := by
  rintro ⟨htyp, -, -⟩
  cases hd : c.dialect <;> simp [statusType, hd] at htyp

/-- Settles O39: the frame has another triple, and its last two bytes are no marker. -/
theorem echoedCommandFrameIsRejected : Obligations.EchoedCommandFrameIsRejected := by
  intro s c dest on rest hp hport
  have htail : holdsMarker [stateByte on, 0x3C + dest + c.remoteAddr + stateByte on] = false := by
    cases on <;> simp [holdsMarker, stateByte]
  obtain ⟨p1, p2, hfeed⟩ := feed_frame_of_wrong_triple .three (h := ⟨0x10, dest, c.remoteAddr, 0x86, 0x02⟩)
    (s := begin { s with port := rest }) hp (not_isStatusTriple_cmdType _ _ _) htail
  exact ⟨_, (step_wireIn hport).trans hfeed, rfl, rfl, rfl, rfl, rfl, rfl, rfl⟩

/-! ### A whole status frame -/

/-- The outputs of a body's bytes up to its last, the acceptance of its header included (40_rx_sync.md R107, R108). -/
def bodyOutputs : List Byte → List Output
  | [] => []
  | _ :: bs => [.ev .needMoreInput, .yield] ++ List.replicate bs.length (.ev .needMoreInput)

/-- The outputs of a frame up to the one that hands it out. -/
def frameOutputs (mk : Marker) (h : Header) (body : List Byte) : List Output :=
  List.replicate ((markerBytes mk).length + 4) (Output.ev .needMoreInput) ++ bodyOutputs body ++
    [Output.ev (.frameReady h body)]

/-- The state in which the body of a frame received while Scanning is interpreted, with the buffer `m`. -/
def frameRead (mk : Marker) (h : Header) (body : List Byte) (m : Memory) (s : State) : State := { s with
  phase := .scanning, cnt := 0, prev := 0, prev2 := 0, hdr := h, body := m, out := s.out ++ frameOutputs mk h body }

/-- A frame with the configured triple and a body of its length is handed to the interpreter as it came. -/
theorem feed_frame (mk : Marker) {h : Header} {body : List Byte} {s : State} (hp : s.phase = .scanning)
    (hwf : s.body.wf = true) (htriple : IsStatusTriple s.cfg h.typ h.dst h.src) (hlen : body.length = h.len.toNat)
    (hmax : body.length ≤ 128) :
    ∃ m : Memory, feed (markerBytes mk ++ headerList h ++ body) s = .next (interpret h body (frameRead mk h body m s)) ∧
      ∀ a, m.read a = if a < body.length then body.getD a 0 else s.body.read a := by
  rw [feed_append, feed_marker_header mk h hp, andThen_next]
  cases body with
  | nil =>
    have hz : h.len = 0 := BitVec.eq_of_toNat_eq hlen.symm
    refine ⟨s.body, ?_, fun a => by simp⟩
    rw [headerComplete_of_empty (s := headerRead mk h s) htriple hz, interpret_of_length_ne _ (by decide)]
    simp [headerRead, frameRead, frameOutputs, bodyOutputs, enterScanning, emit_eq]
  | cons b bs =>
    have hpos : 1 ≤ h.len.toNat := by rw [← hlen]; simp
    rw [headerComplete_of_body (s := headerRead mk h s) htriple hpos (hlen ▸ hmax)]
    obtain ⟨m, hfeed, -, hread⟩ := feed_whole_body (b :: bs)
      (emit .yield (emit (.ev .needMoreInput) { headerRead mk h s with phase := .readingBody, cnt := 0 })) rfl hwf
      (show h.len.toNat ≤ 128 from hlen ▸ hmax) rfl (List.cons_ne_nil b bs) hlen
    refine ⟨m, hfeed.trans ?_, hread⟩
    simp [headerRead, frameRead, frameOutputs, bodyOutputs, emit_eq]

/-- A byte after a clear lookback completes no marker. -/
theorem rxByte_after_clear {s : State} (hp : s.phase = .scanning) (hprev : s.prev = 0) (hprev2 : s.prev2 = 0)
    (b : Byte) : rxByte b s = .next (emit (.ev .needMoreInput) { s with prev2 := 0, prev := b }) := by
  have hmiss : isSof s.prev2 s.prev b = false := by simp [isSof, hprev, hprev2]
  rw [rxByte_scanning hp, rxScan_of_miss hmiss, hprev]

/-- A frame and its checksum byte, which is scanned like any other (40_rx_sync.md R111). -/
theorem feed_frame_checksum (mk : Marker) {h : Header} {body : List Byte} {s : State} (hs : Inv s)
    (hp : s.phase = .scanning) (htriple : IsStatusTriple s.cfg h.typ h.dst h.src) (hlen : body.length = h.len.toNat)
    (hmax : body.length ≤ 128) (chk : Byte) :
    ∃ m : Memory, feed (markerBytes mk ++ headerList h ++ body ++ [chk]) s = .next (emit (.ev .needMoreInput)
        { interpret h body (frameRead mk h body m s) with prev2 := 0, prev := chk }) ∧
      ∀ a, m.read a = if a < body.length then body.getD a 0 else s.body.read a := by
  obtain ⟨m, hfeed, hread⟩ := feed_frame mk hp (body_wf_of_inv hs) htriple hlen hmax
  refine ⟨m, ?_, hread⟩
  rw [feed_append_of_next hfeed (feed_singleton chk _), rxByte_after_clear]
  · rw [interpret_phase]; rfl
  · rw [interpret_prev]; rfl
  · rw [interpret_prev2]; rfl

/-- The outputs of a frame with a 27-byte body, written out. -/
theorem frameOutputs_of_length {body : List Byte} (hb : body.length = 27) (mk : Marker) (h : Header) :
    frameOutputs mk h body =
      List.replicate ((markerBytes mk).length + 5) (Output.ev .needMoreInput) ++ [Output.yield] ++
        List.replicate 26 (Output.ev .needMoreInput) ++ [Output.ev (.frameReady h body)] := by
  cases body with
  | nil => cases hb
  | cons b bs =>
    have hbs : bs.length = 26 := Nat.succ.inj hb
    rw [frameOutputs, bodyOutputs, hbs, List.replicate_succ' (n := (markerBytes mk).length + 4)]
    simp only [List.append_assoc, List.cons_append, List.nil_append]

/-- A whole status frame with the expected command, in the dialect that is configured. -/
theorem feed_status_frame (mk : Marker) {h : Header} {body : List Byte} {s : State} (hs : Inv s)
    (hp : s.phase = .scanning) (htriple : IsStatusTriple s.cfg h.typ h.dst h.src)
    (hcmd : IsStatusCommand s.cfg h.cmd) (hlen : h.len = 27) (hb : body.length = 27) (chk : Byte) :
    ∃ t, feed (markerBytes mk ++ headerList h ++ body ++ [chk]) (begin s) = .next t ∧
      t.phase = .scanning ∧ t.cnt = 0 ∧ t.prev2 = 0 ∧ t.prev = chk ∧ headerList t.hdr = headerList h ∧
      t.lastStatus.toList = body ∧ t.statusValid = true ∧ RegistryAfterStatus s.reg t.reg body ∧ t.diag = s.diag ∧
      (∀ a, t.body.read a = if a < 27 then body.getD a 0 else s.body.read a) ∧
      t.out = List.replicate ((markerBytes mk).length + 5) (Output.ev .needMoreInput) ++ [Output.yield] ++
        List.replicate 26 (Output.ev .needMoreInput) ++ [Output.ev (.frameReady h body)] ++ statusOutputs s body ++
        [Output.ev .needMoreInput] := by
  obtain ⟨m, hfeed, hread⟩ := feed_frame_checksum mk (s := begin s) hs hp htriple (by rw [hb, hlen]; rfl)
    (by omega) chk
  obtain ⟨r, p, he, hp', hr⟩ := interpret_accepted (s := frameRead mk h body m (begin s)) hb htriple hcmd
  rw [he] at hfeed
  refine ⟨_, hfeed, rfl, rfl, rfl, rfl, rfl, hp', rfl, hr, rfl, fun a => hb ▸ hread a, ?_⟩
  rw [← frameOutputs_of_length hb]
  rfl

/-- Settles O53: the header carries dialect L's triple. -/
theorem statusFrameOfDialectLIsDecoded : Obligations.StatusFrameOfDialectLIsDecoded := by
  intro mk cmd body chk s hs hp hd hcmd hb
  have htriple : IsStatusTriple s.cfg 0x02 0x0F 0x10 := by
    simp [IsStatusTriple, statusType, broadcastAddr, mainAddr, hd]
  have hcmd' : IsStatusCommand s.cfg cmd := by
    intro k hk
    simp only [statusCmd, hd] at hk
    split at hk
    · next hon => cases hk; exact hcmd hon
    · cases hk
  exact feed_status_frame mk (h := ⟨0x02, 0x0F, 0x10, cmd, 27⟩) hs hp htriple hcmd' rfl hb chk

/-- Settles O54: the header carries dialect E's triple under this broadcast address. -/
theorem statusFrameOfDialectEIsDecoded : Obligations.StatusFrameOfDialectEIsDecoded := by
  intro mk main cmd body chk s hs hp hd hbroadcast hmain hcmd hb
  have htriple : IsStatusTriple s.cfg 0x14 0x0F main := by
    simp [IsStatusTriple, statusType, broadcastAddr, mainAddr, hd, hbroadcast, hmain]
  have hcmd' : IsStatusCommand s.cfg cmd := by simpa [IsStatusCommand, statusCmd, hd] using hcmd
  exact feed_status_frame mk (h := ⟨0x14, 0x0F, main, cmd, 27⟩) hs hp htriple hcmd' rfl hb chk

/-! ### The frame events of a frame -/

theorem filter_isFrameEvent_waiting (n : Nat) :
    (List.replicate n (Output.ev .needMoreInput)).filter isFrameEvent = [] := by
  simp [isFrameEvent]

theorem filter_isFrameEvent_frameOutputs (mk : Marker) (h : Header) (body : List Byte) :
    (frameOutputs mk h body).filter isFrameEvent = [.ev (.frameReady h body)] := by
  have hbody : (bodyOutputs body).filter isFrameEvent = [] := by
    cases body with
    | nil => rfl
    | cons b bs => simp [bodyOutputs, isFrameEvent]
  rw [frameOutputs, List.filter_append, List.filter_append, filter_isFrameEvent_waiting, hbody]
  rfl

theorem isFrameEvent_of_isEv_false {o : Output} (h : isEv o = false) : isFrameEvent o = false := by
  cases o with
  | ev e => cases h
  | _ => rfl

theorem filter_isFrameEvent_of_mayFollowEv {l : List Output} (h : ∀ o ∈ l, MayFollowEv o) :
    l.filter isFrameEvent = [] := by
  refine List.filter_eq_nil_iff.2 fun o ho => ?_
  rw [isFrameEvent_of_isEv_false (h o ho).1]
  exact Bool.false_ne_true

theorem ev_or_yield_of_mem_frameOutputs {mk : Marker} {h : Header} {body : List Byte} {o : Output}
    (ho : o ∈ frameOutputs mk h body) : (∃ e, o = .ev e) ∨ o = .yield := by
  have hbody : o ∈ bodyOutputs body → (∃ e, o = .ev e) ∨ o = .yield := by
    cases body with
    | nil => intro ho; cases ho
    | cons b bs =>
      simp only [bodyOutputs, List.mem_append, List.mem_cons, List.mem_replicate, List.not_mem_nil, or_false]
      rintro ((rfl | rfl) | ⟨-, rfl⟩)
      · exact .inl ⟨_, rfl⟩
      · exact .inr rfl
      · exact .inl ⟨_, rfl⟩
  simp only [frameOutputs, List.mem_append, List.mem_replicate, List.mem_singleton] at ho
  obtain (⟨-, rfl⟩ | ho) | rfl := ho
  · exact .inl ⟨_, rfl⟩
  · exact hbody ho
  · exact .inl ⟨_, rfl⟩

/-- Settles O55: the frame is handed out, its length is refused, and the checksum byte is scanned. -/
theorem statusFrameOfAnotherLengthIsRefused : Obligations.StatusFrameOfAnotherLengthIsRefused := by
  intro mk h body chk rest s hs hp htriple hlen hmax hne hport
  obtain ⟨m, hfeed, -⟩ := feed_frame_checksum mk (s := begin { s with port := rest }) hs hp htriple hlen hmax chk
  rw [interpret_of_length_ne _ hne] at hfeed
  have hmem : ∀ o ∈ frameOutputs mk h body ++ [Output.diag .malformedStatusLength] ++ [Output.ev .needMoreInput],
      (∃ e, o = .ev e) ∨ o = .yield ∨ ∃ c, o = .diag c := by
    intro o ho
    simp only [List.mem_append, List.mem_singleton] at ho
    obtain (ho | rfl) | rfl := ho
    · exact (ev_or_yield_of_mem_frameOutputs ho).imp_right .inl
    · exact .inr (.inr ⟨_, rfl⟩)
    · exact .inl ⟨_, rfl⟩
  have hstep := (step_wireIn hport).trans hfeed
  refine ⟨_, hstep, rfl, rfl, rfl, rfl, rfl, rfl, rfl, rfl, rfl, ?_, fun f v hv => ?_, fun ch v hv => ?_⟩
  · simp only [emit_out, raiseRefuse_out, frameRead, begin_out, List.nil_append, List.filter_append,
      filter_isFrameEvent_frameOutputs]
    rfl
  · obtain ⟨e, he⟩ | he | ⟨c, he⟩ := hmem _ hv <;> cases he
  · obtain ⟨e, he⟩ | he | ⟨c, he⟩ := hmem _ hv <;> cases he

/-! ### One frame among noise -/

/-- A frame and noise after it emit one frame event, that of the frame. -/
theorem feed_frame_noise (mk : Marker) {h : Header} {body noise : List Byte} {s : State} (hp : s.phase = .scanning)
    (hwf : s.body.wf = true) (htriple : IsStatusTriple s.cfg h.typ h.dst h.src) (hlen : body.length = h.len.toNat)
    (hmax : body.length ≤ 128) (hnoise : holdsMarker noise = false) :
    ∃ t l, feed (markerBytes mk ++ headerList h ++ body ++ noise) s = .next t ∧ t.phase = .scanning ∧
      t.out = s.out ++ l ∧ l.filter isFrameEvent = [.ev (.frameReady h body)] := by
  obtain ⟨m, hframe, -⟩ := feed_frame mk hp hwf htriple hlen hmax
  obtain ⟨l, hl, hquiet, -⟩ := interpret_appendsQuietly h body (frameRead mk h body m s)
  obtain ⟨p1, p2, hafter⟩ := feed_noise_of_clear (s := interpret h body (frameRead mk h body m s)) hnoise
    (interpret_phase _ _ _) (interpret_prev _ _ _) (interpret_prev2 _ _ _)
  refine ⟨_, frameOutputs mk h body ++ l ++ List.replicate noise.length (Output.ev .needMoreInput),
    feed_append_of_next hframe hafter, interpret_phase _ _ _, ?_, ?_⟩
  · rw [hl]
    simp only [frameRead, List.append_assoc]
  · rw [List.filter_append, List.filter_append, filter_isFrameEvent_frameOutputs,
      filter_isFrameEvent_of_mayFollowEv hquiet, filter_isFrameEvent_waiting]
    rfl

/-- Settles O57: the noise before and after emits no frame event, and the frame exactly the one. -/
theorem oneFrameAmongNoise : Obligations.OneFrameAmongNoise := by
  intro n1 n2 body h rest s hs hp hprev hprev2 hn1 hn2 htriple hlen hmax hport
  obtain ⟨p1, p2, hbefore⟩ := feed_noise_of_clear (s := begin { s with port := rest }) hn1 hp hprev hprev2
  obtain ⟨t, l, hframe, hphase, hout, hfilter⟩ := feed_frame_noise .three (s := { begin { s with port := rest } with
    prev := p1, prev2 := p2, out := [] ++ List.replicate n1.length (.ev .needMoreInput) }) hp
    (body_wf_of_inv (s := s) hs) htriple hlen hmax hn2
  refine ⟨t, ?_, hphase, ?_⟩
  · rw [step_wireIn hport, List.append_assoc]
    exact feed_append_of_next hbefore hframe
  · rw [hout, List.filter_append, hfilter, List.nil_append, filter_isFrameEvent_waiting]
    rfl

end Sys2Proof.Claims
end
